-- ==== Sys2Proof/Word.lean ====
section
/-! DEFINITION. The widths of the machine (spec/00_scope.md R6, R8): bytes, 16-bit words, and the names of the
registers and keys. -/

namespace Sys2Proof

/-- An 8-bit value: a general register, a timer, a memory byte, an immediate `NN` (R6 `REG_W`, `TIMER_W`). -/
abbrev Byte := BitVec 8

/-- A 16-bit value: `PC`, `I`, a stack slot, an instruction word (R6 `PC_W`, `I_W`, `STACK_W`). -/
abbrev Half := BitVec 16

/-- The name of a general register, V0 to VF (R11). It is only a name: nothing adds or masks it. -/
abbrev Reg := Fin 16

/-- The name of a key latch (R20). -/
abbrev Key := Fin 16

/-- `zext_16` of a byte (R8). -/
abbrev zext16 (b : Byte) : Half := b.setWidth 16

/-- `zext_16` of a 12-bit immediate (R8, R63). -/
abbrev zextAddr (nnn : BitVec 12) : Half := nnn.setWidth 16

end Sys2Proof
end

