-- ==== Sys2Proof/Config.lean ====
section
/-! DEFINITION. The parameters of the core (spec/00_scope.md R6) that are constants, and the one free value of the
manual, the random byte. The two open parameters with a default, the font bytes and the error codes, stand in
Machine/Font.lean and Machine/Commands.lean. -/

namespace Sys2Proof.Config

/-- `MEM_SIZE`: bytes of memory, addresses 0 to 4095 (R6, R40). -/
abbrev memSize : Nat := 4096

/-- `FONT_SIZE`: the font table is at addresses 0 to 79 (R6, R41). -/
abbrev fontSize : Nat := 80

/-- `GLYPH_BYTES`: bytes of one font glyph (R6, R42). -/
abbrev glyphBytes : Nat := 5

/-- `START`: where a program is loaded and where `PC` points after reset (R6, R26). -/
abbrev start : Nat := 0x200

/-- `FB_W`: pixels in a row (R6, R21). -/
abbrev fbWidth : Nat := 64

/-- `FB_H`: rows (R6, R21). -/
abbrev fbHeight : Nat := 32

/-- `INSTR_BYTES`: bytes of an instruction (R6, R60). -/
abbrev instrBytes : Half := 2

/-- The random byte of the n-th `CXNN` for which the driver names no byte (R111, R178: "The spec puts no law on
`rnd`"). A free value: it has no body, so no proof can see what it is. Log 5. -/
opaque randomByte : Nat → Byte

end Sys2Proof.Config
end

