-- ==== Sys2Proof/Syntax.lean ====
section
/-! DEFINITION. The 35 instructions (spec/30_encoding.md R65, spec/opcode_table.json), one constructor a row, in the
table's order. An operand has the width of its field (R61, R63), so an operand out of range cannot be written. -/

namespace Sys2Proof

/-- One constructor per row of the opcode table. -/
inductive Instr where
  /-- `0000` NOP (R80). -/
  | nop
  /-- `00E0` CLS (R140). -/
  | cls
  /-- `00EE` RET (R81). -/
  | ret
  /-- `1NNN` JP nnn (R82). -/
  | jp (nnn : BitVec 12)
  /-- `2NNN` CALL nnn (R83). -/
  | call (nnn : BitVec 12)
  /-- `3XNN` SE Vx, nn (R84). -/
  | seImm (x : Reg) (nn : Byte)
  /-- `4XNN` SNE Vx, nn (R85). -/
  | sneImm (x : Reg) (nn : Byte)
  /-- `5XY0` SE Vx, Vy (R86). -/
  | seReg (x y : Reg)
  /-- `6XNN` LD Vx, nn (R100). -/
  | ldImm (x : Reg) (nn : Byte)
  /-- `7XNN` ADD Vx, nn (R101). -/
  | addImm (x : Reg) (nn : Byte)
  /-- `8XY0` LD Vx, Vy (R102). -/
  | ldReg (x y : Reg)
  /-- `8XY1` OR Vx, Vy (R103). -/
  | orReg (x y : Reg)
  /-- `8XY2` AND Vx, Vy (R104). -/
  | andReg (x y : Reg)
  /-- `8XY3` XOR Vx, Vy (R105). -/
  | xorReg (x y : Reg)
  /-- `8XY4` ADD Vx, Vy (R106). -/
  | addReg (x y : Reg)
  /-- `8XY5` SUB Vx, Vy (R107). -/
  | subReg (x y : Reg)
  /-- `8XY6` SHR Vx (R108). `y` is decoded and ignored (R67). -/
  | shr (x y : Reg)
  /-- `8XY7` SUBN Vx, Vy (R109). -/
  | subnReg (x y : Reg)
  /-- `8XYE` SHL Vx (R110). `y` is decoded and ignored (R67). -/
  | shl (x y : Reg)
  /-- `9XY0` SNE Vx, Vy (R87). -/
  | sneReg (x y : Reg)
  /-- `ANNN` LD I, nnn (R120). -/
  | ldI (nnn : BitVec 12)
  /-- `BNNN` JP V0, nnn (R88). -/
  | jpV0 (nnn : BitVec 12)
  /-- `CXNN` RND Vx, nn (R111). -/
  | rnd (x : Reg) (nn : Byte)
  /-- `DXYN` DRW Vx, Vy, n (R141). -/
  | drw (x y : Reg) (n : BitVec 4)
  /-- `EX9E` SKP Vx (R150). -/
  | skp (x : Reg)
  /-- `EXA1` SKNP Vx (R151). -/
  | sknp (x : Reg)
  /-- `FX07` LD Vx, DT (R152). -/
  | ldVxDt (x : Reg)
  /-- `FX0A` LD Vx, K (R153). -/
  | ldVxK (x : Reg)
  /-- `FX15` LD DT, Vx (R154). -/
  | ldDtVx (x : Reg)
  /-- `FX18` LD ST, Vx (R155). -/
  | ldStVx (x : Reg)
  /-- `FX1E` ADD I, Vx (R121). -/
  | addI (x : Reg)
  /-- `FX29` LD F, Vx (R122). -/
  | ldF (x : Reg)
  /-- `FX33` LD B, Vx (R123). -/
  | ldB (x : Reg)
  /-- `FX55` LD [I], Vx (R124). -/
  | storeRegs (x : Reg)
  /-- `FX65` LD Vx, [I] (R125). -/
  | loadRegs (x : Reg)
  deriving DecidableEq, Repr

end Sys2Proof
end

