-- ==== Sys2Proof/WellFormed.lean ====
section
/-! DEFINITION. What a well-formed instruction is. An `Instr` is well-formed by its types; the check is written out
all the same, over the operand fields as numbers (spec/30_encoding.md R61), and beside it the check that a WORD must
pass: to match a row of the opcode map (R65). -/

namespace Sys2Proof

/-- An operand field of an instruction word: bits `hi` to `lo`, and the number it holds (R61). -/
structure Field where
  hi    : Nat
  lo    : Nat
  value : Nat
  deriving DecidableEq, Repr

/-- The number fits the field's bits. -/
def Field.fits (f : Field) : Bool := decide (f.value < 2 ^ (f.hi + 1 - f.lo))

/-- The `X` field, bits 11:8 (R61). -/
def fieldX (value : Nat) : Field := { hi := 11, lo := 8, value }
/-- The `Y` field, bits 7:4 (R61). -/
def fieldY (value : Nat) : Field := { hi := 7, lo := 4, value }
/-- The `N` field, bits 3:0 (R61). -/
def fieldN (value : Nat) : Field := { hi := 3, lo := 0, value }
/-- The `NN` field, bits 7:0 (R61). -/
def fieldNN (value : Nat) : Field := { hi := 7, lo := 0, value }
/-- The `NNN` field, bits 11:0 (R61). -/
def fieldNNN (value : Nat) : Field := { hi := 11, lo := 0, value }

/-- The operand fields of an instruction (R62, R65). -/
def Instr.fields : Instr → List Field
  | .nop => []
  | .cls => []
  | .ret => []
  | .jp nnn => [fieldNNN nnn.toNat]
  | .call nnn => [fieldNNN nnn.toNat]
  | .seImm x nn => [fieldX x, fieldNN nn.toNat]
  | .sneImm x nn => [fieldX x, fieldNN nn.toNat]
  | .seReg x y => [fieldX x, fieldY y]
  | .ldImm x nn => [fieldX x, fieldNN nn.toNat]
  | .addImm x nn => [fieldX x, fieldNN nn.toNat]
  | .ldReg x y => [fieldX x, fieldY y]
  | .orReg x y => [fieldX x, fieldY y]
  | .andReg x y => [fieldX x, fieldY y]
  | .xorReg x y => [fieldX x, fieldY y]
  | .addReg x y => [fieldX x, fieldY y]
  | .subReg x y => [fieldX x, fieldY y]
  | .shr x y => [fieldX x, fieldY y]
  | .subnReg x y => [fieldX x, fieldY y]
  | .shl x y => [fieldX x, fieldY y]
  | .sneReg x y => [fieldX x, fieldY y]
  | .ldI nnn => [fieldNNN nnn.toNat]
  | .jpV0 nnn => [fieldNNN nnn.toNat]
  | .rnd x nn => [fieldX x, fieldNN nn.toNat]
  | .drw x y n => [fieldX x, fieldY y, fieldN n.toNat]
  | .skp x => [fieldX x]
  | .sknp x => [fieldX x]
  | .ldVxDt x => [fieldX x]
  | .ldVxK x => [fieldX x]
  | .ldDtVx x => [fieldX x]
  | .ldStVx x => [fieldX x]
  | .addI x => [fieldX x]
  | .ldF x => [fieldX x]
  | .ldB x => [fieldX x]
  | .storeRegs x => [fieldX x]
  | .loadRegs x => [fieldX x]

/-- Every operand fits its field. -/
def Instr.wellFormed (i : Instr) : Bool := i.fields.all Field.fits

/-- One row of the opcode map (R65): "an instruction word `op` is this instruction exactly when
`op & mask == match`". -/
structure OpRow where
  mnemonic : String
  mask     : Half
  pattern  : Half
  deriving DecidableEq, Repr

/-- The word is this row's instruction (R65). -/
def OpRow.accepts (r : OpRow) (w : Half) : Bool := (w &&& r.mask) == r.pattern

/-- Rows 1 to 10 and 20 to 24 of R65: the rows whose mask is 0xFFFF or 0xF000, and the two of mask 0xF00F outside the
first nibble 8. -/
def opRowsMajor : List OpRow :=
  [⟨"NOP", 0xFFFF, 0x0000⟩, ⟨"CLS", 0xFFFF, 0x00E0⟩, ⟨"RET", 0xFFFF, 0x00EE⟩,
   ⟨"JP_nnn", 0xF000, 0x1000⟩, ⟨"CALL_nnn", 0xF000, 0x2000⟩, ⟨"SE_Vx__nn", 0xF000, 0x3000⟩,
   ⟨"SNE_Vx__nn", 0xF000, 0x4000⟩, ⟨"SE_Vx__Vy", 0xF00F, 0x5000⟩, ⟨"LD_Vx__nn", 0xF000, 0x6000⟩,
   ⟨"ADD_Vx__nn", 0xF000, 0x7000⟩, ⟨"SNE_Vx__Vy", 0xF00F, 0x9000⟩, ⟨"LD_I__nnn", 0xF000, 0xA000⟩,
   ⟨"JP_V0__nnn", 0xF000, 0xB000⟩, ⟨"RND_Vx__nn", 0xF000, 0xC000⟩, ⟨"DRW_Vx__Vy__n", 0xF000, 0xD000⟩]

/-- Rows 11 to 19 of R65: first nibble 8. -/
def opRowsAlu : List OpRow :=
  [⟨"LD_Vx__Vy", 0xF00F, 0x8000⟩, ⟨"OR_Vx__Vy", 0xF00F, 0x8001⟩, ⟨"AND_Vx__Vy", 0xF00F, 0x8002⟩,
   ⟨"XOR_Vx__Vy", 0xF00F, 0x8003⟩, ⟨"ADD_Vx__Vy", 0xF00F, 0x8004⟩, ⟨"SUB_Vx__Vy", 0xF00F, 0x8005⟩,
   ⟨"SHR_Vx", 0xF00F, 0x8006⟩, ⟨"SUBN_Vx__Vy", 0xF00F, 0x8007⟩, ⟨"SHL_Vx", 0xF00F, 0x800E⟩]

/-- Rows 25 to 35 of R65: first nibbles E and F. -/
def opRowsMisc : List OpRow :=
  [⟨"SKP_Vx", 0xF0FF, 0xE09E⟩, ⟨"SKNP_Vx", 0xF0FF, 0xE0A1⟩, ⟨"LD_Vx__DT", 0xF0FF, 0xF007⟩,
   ⟨"LD_Vx__K", 0xF0FF, 0xF00A⟩, ⟨"LD_DT__Vx", 0xF0FF, 0xF015⟩, ⟨"LD_ST__Vx", 0xF0FF, 0xF018⟩,
   ⟨"ADD_I__Vx", 0xF0FF, 0xF01E⟩, ⟨"LD_F__Vx", 0xF0FF, 0xF029⟩, ⟨"LD_B__Vx", 0xF0FF, 0xF033⟩,
   ⟨"LD__I___Vx", 0xF0FF, 0xF055⟩, ⟨"LD_Vx___I", 0xF0FF, 0xF065⟩]

/-- The opcode map of R65, 35 rows. -/
def opRows : List OpRow := opRowsMajor ++ opRowsAlu ++ opRowsMisc

/-- A word is well-formed when it matches a row; "a word is one of the 35 instructions or it is an error" (R66, R68). -/
def wordWellFormed (w : Half) : Bool := opRows.any (fun r => r.accepts w)

/-- The row of an instruction (R65), by its mask and pattern. -/
def Instr.row : Instr → OpRow
  | .nop => ⟨"NOP", 0xFFFF, 0x0000⟩
  | .cls => ⟨"CLS", 0xFFFF, 0x00E0⟩
  | .ret => ⟨"RET", 0xFFFF, 0x00EE⟩
  | .jp _ => ⟨"JP_nnn", 0xF000, 0x1000⟩
  | .call _ => ⟨"CALL_nnn", 0xF000, 0x2000⟩
  | .seImm _ _ => ⟨"SE_Vx__nn", 0xF000, 0x3000⟩
  | .sneImm _ _ => ⟨"SNE_Vx__nn", 0xF000, 0x4000⟩
  | .seReg _ _ => ⟨"SE_Vx__Vy", 0xF00F, 0x5000⟩
  | .ldImm _ _ => ⟨"LD_Vx__nn", 0xF000, 0x6000⟩
  | .addImm _ _ => ⟨"ADD_Vx__nn", 0xF000, 0x7000⟩
  | .ldReg _ _ => ⟨"LD_Vx__Vy", 0xF00F, 0x8000⟩
  | .orReg _ _ => ⟨"OR_Vx__Vy", 0xF00F, 0x8001⟩
  | .andReg _ _ => ⟨"AND_Vx__Vy", 0xF00F, 0x8002⟩
  | .xorReg _ _ => ⟨"XOR_Vx__Vy", 0xF00F, 0x8003⟩
  | .addReg _ _ => ⟨"ADD_Vx__Vy", 0xF00F, 0x8004⟩
  | .subReg _ _ => ⟨"SUB_Vx__Vy", 0xF00F, 0x8005⟩
  | .shr _ _ => ⟨"SHR_Vx", 0xF00F, 0x8006⟩
  | .subnReg _ _ => ⟨"SUBN_Vx__Vy", 0xF00F, 0x8007⟩
  | .shl _ _ => ⟨"SHL_Vx", 0xF00F, 0x800E⟩
  | .sneReg _ _ => ⟨"SNE_Vx__Vy", 0xF00F, 0x9000⟩
  | .ldI _ => ⟨"LD_I__nnn", 0xF000, 0xA000⟩
  | .jpV0 _ => ⟨"JP_V0__nnn", 0xF000, 0xB000⟩
  | .rnd _ _ => ⟨"RND_Vx__nn", 0xF000, 0xC000⟩
  | .drw _ _ _ => ⟨"DRW_Vx__Vy__n", 0xF000, 0xD000⟩
  | .skp _ => ⟨"SKP_Vx", 0xF0FF, 0xE09E⟩
  | .sknp _ => ⟨"SKNP_Vx", 0xF0FF, 0xE0A1⟩
  | .ldVxDt _ => ⟨"LD_Vx__DT", 0xF0FF, 0xF007⟩
  | .ldVxK _ => ⟨"LD_Vx__K", 0xF0FF, 0xF00A⟩
  | .ldDtVx _ => ⟨"LD_DT__Vx", 0xF0FF, 0xF015⟩
  | .ldStVx _ => ⟨"LD_ST__Vx", 0xF0FF, 0xF018⟩
  | .addI _ => ⟨"ADD_I__Vx", 0xF0FF, 0xF01E⟩
  | .ldF _ => ⟨"LD_F__Vx", 0xF0FF, 0xF029⟩
  | .ldB _ => ⟨"LD_B__Vx", 0xF0FF, 0xF033⟩
  | .storeRegs _ => ⟨"LD__I___Vx", 0xF0FF, 0xF055⟩
  | .loadRegs _ => ⟨"LD_Vx___I", 0xF0FF, 0xF065⟩

end Sys2Proof
end

