-- ==== Sys2Proof/Decode.lean ====
section
/-! DEFINITION. Decoding (spec/30_encoding.md R60 to R68), total on any bytes, and after it the encoder. -/

namespace Sys2Proof

/-- Why decoding gives no instruction. -/
inductive DecodeError where
  /-- The word matches no row of the opcode map (R66): "An instruction whose nibble pattern matches none of the
  defined opcodes is a fatal decode error." -/
  | unknownOpcode (word : Half)
  /-- Fewer than two bytes were given; the machine's own fetch never does this (R60, R173). -/
  | truncated
  deriving DecidableEq, Repr

/-- The nibble of a word whose lowest bit is `lo` (R8, R61). -/
def nibble (w : Half) (lo : Nat) : BitVec 4 := w.extractLsb' lo 4

/-- `X`, bits 11:8, as a register name (R61). -/
def fieldRegX (w : Half) : Reg := (nibble w 8).toFin
/-- `Y`, bits 7:4, as a register name (R61). -/
def fieldRegY (w : Half) : Reg := (nibble w 4).toFin
/-- `N`, bits 3:0 (R61). -/
def fieldImmN (w : Half) : BitVec 4 := nibble w 0
/-- `NN`, bits 7:0 (R61). -/
def fieldImmNN (w : Half) : Byte := w.extractLsb' 0 8
/-- `NNN`, bits 11:0 (R61). -/
def fieldImmNNN (w : Half) : BitVec 12 := w.extractLsb' 0 12

/-- First nibble 0 (R64): three whole words. -/
def decode0 (w : Half) : Option Instr :=
  if w = 0x0000 then some .nop
  else if w = 0x00E0 then some .cls
  else if w = 0x00EE then some .ret
  else none

/-- First nibble 8 (R64): the last nibble is the minor opcode. -/
def decode8 (w : Half) : Option Instr :=
  let x := fieldRegX w
  let y := fieldRegY w
  match (fieldImmN w).toNat with
  | 0x0 => some (.ldReg x y)
  | 0x1 => some (.orReg x y)
  | 0x2 => some (.andReg x y)
  | 0x3 => some (.xorReg x y)
  | 0x4 => some (.addReg x y)
  | 0x5 => some (.subReg x y)
  | 0x6 => some (.shr x y)
  | 0x7 => some (.subnReg x y)
  | 0xE => some (.shl x y)
  | _ => none

/-- First nibble E (R64): the low byte is the minor opcode. -/
def decodeE (w : Half) : Option Instr :=
  match (fieldImmNN w).toNat with
  | 0x9E => some (.skp (fieldRegX w))
  | 0xA1 => some (.sknp (fieldRegX w))
  | _ => none

/-- First nibble F (R64): the low byte is the minor opcode. -/
def decodeF (w : Half) : Option Instr :=
  let x := fieldRegX w
  match (fieldImmNN w).toNat with
  | 0x07 => some (.ldVxDt x)
  | 0x0A => some (.ldVxK x)
  | 0x15 => some (.ldDtVx x)
  | 0x18 => some (.ldStVx x)
  | 0x1E => some (.addI x)
  | 0x29 => some (.ldF x)
  | 0x33 => some (.ldB x)
  | 0x55 => some (.storeRegs x)
  | 0x65 => some (.loadRegs x)
  | _ => none

/-- The decision tree of R64 on an instruction word. -/
def decodeTree (w : Half) : Option Instr :=
  match (nibble w 12).toNat with
  | 0x0 => decode0 w
  | 0x1 => some (.jp (fieldImmNNN w))
  | 0x2 => some (.call (fieldImmNNN w))
  | 0x3 => some (.seImm (fieldRegX w) (fieldImmNN w))
  | 0x4 => some (.sneImm (fieldRegX w) (fieldImmNN w))
  | 0x5 => if fieldImmN w = 0 then some (.seReg (fieldRegX w) (fieldRegY w)) else none
  | 0x6 => some (.ldImm (fieldRegX w) (fieldImmNN w))
  | 0x7 => some (.addImm (fieldRegX w) (fieldImmNN w))
  | 0x8 => decode8 w
  | 0x9 => if fieldImmN w = 0 then some (.sneReg (fieldRegX w) (fieldRegY w)) else none
  | 0xA => some (.ldI (fieldImmNNN w))
  | 0xB => some (.jpV0 (fieldImmNNN w))
  | 0xC => some (.rnd (fieldRegX w) (fieldImmNN w))
  | 0xD => some (.drw (fieldRegX w) (fieldRegY w) (fieldImmN w))
  | 0xE => decodeE w
  | 0xF => decodeF w
  | _ => none

/-- Decode one instruction word, rejecting by name (R64, R66). -/
def decodeWord (w : Half) : Except DecodeError Instr :=
  match decodeTree w with
  | some i => .ok i
  | none => .error (.unknownOpcode w)

/-- Two bytes as an instruction word: "combines them big-endian" (R45, R60). -/
def wordOfBytes (hi lo : Byte) : Half := hi ++ lo

/-- The byte at the lower address, the high half of the word (R45). -/
def highByte (w : Half) : Byte := w.extractLsb' 8 8
/-- The byte at the higher address, the low half of the word (R45). -/
def lowByte (w : Half) : Byte := w.extractLsb' 0 8

/-- Decode the first instruction of a byte sequence and give the rest of it: every instruction is two bytes, high byte
first (R60). -/
def decode : List Byte → Except DecodeError (Instr × List Byte)
  | hi :: lo :: rest =>
    match decodeWord (wordOfBytes hi lo) with
    | .ok i => .ok (i, rest)
    | .error e => .error e
  | _ => .error .truncated

/-! ## The encoder (R62, R65) -/

/-- A register name as a 4-bit field (R61). -/
def regBits (x : Reg) : BitVec 4 := BitVec.ofFin x

/-- Format NNN: first nibble, 12-bit immediate (R62). -/
def wordNNN (op : BitVec 4) (nnn : BitVec 12) : Half := op ++ nnn
/-- Format XNN: first nibble, X, 8-bit immediate (R62). -/
def wordXNN (op : BitVec 4) (x : Reg) (nn : Byte) : Half := op ++ (regBits x ++ nn)
/-- Formats XY and XYN: first nibble, X, Y, last nibble (R62). -/
def wordXYN (op : BitVec 4) (x y : Reg) (n : BitVec 4) : Half := op ++ (regBits x ++ (regBits y ++ n))
/-- Format X: first nibble, X, minor opcode in the low byte (R62). -/
def wordX (op : BitVec 4) (x : Reg) (minor : Byte) : Half := op ++ (regBits x ++ minor)

/-- The word of an instruction (R65). -/
def encode : Instr → Half
  | .nop => 0x0000
  | .cls => 0x00E0
  | .ret => 0x00EE
  | .jp nnn => wordNNN 0x1 nnn
  | .call nnn => wordNNN 0x2 nnn
  | .seImm x nn => wordXNN 0x3 x nn
  | .sneImm x nn => wordXNN 0x4 x nn
  | .seReg x y => wordXYN 0x5 x y 0x0
  | .ldImm x nn => wordXNN 0x6 x nn
  | .addImm x nn => wordXNN 0x7 x nn
  | .ldReg x y => wordXYN 0x8 x y 0x0
  | .orReg x y => wordXYN 0x8 x y 0x1
  | .andReg x y => wordXYN 0x8 x y 0x2
  | .xorReg x y => wordXYN 0x8 x y 0x3
  | .addReg x y => wordXYN 0x8 x y 0x4
  | .subReg x y => wordXYN 0x8 x y 0x5
  | .shr x y => wordXYN 0x8 x y 0x6
  | .subnReg x y => wordXYN 0x8 x y 0x7
  | .shl x y => wordXYN 0x8 x y 0xE
  | .sneReg x y => wordXYN 0x9 x y 0x0
  | .ldI nnn => wordNNN 0xA nnn
  | .jpV0 nnn => wordNNN 0xB nnn
  | .rnd x nn => wordXNN 0xC x nn
  | .drw x y n => wordXYN 0xD x y n
  | .skp x => wordX 0xE x 0x9E
  | .sknp x => wordX 0xE x 0xA1
  | .ldVxDt x => wordX 0xF x 0x07
  | .ldVxK x => wordX 0xF x 0x0A
  | .ldDtVx x => wordX 0xF x 0x15
  | .ldStVx x => wordX 0xF x 0x18
  | .addI x => wordX 0xF x 0x1E
  | .ldF x => wordX 0xF x 0x29
  | .ldB x => wordX 0xF x 0x33
  | .storeRegs x => wordX 0xF x 0x55
  | .loadRegs x => wordX 0xF x 0x65

/-- The two bytes of an instruction as they stand in memory, high byte first (R45, R60). -/
def encodeBytes (i : Instr) : List Byte := [highByte (encode i), lowByte (encode i)]

/-- The instruction this decoder reads from the word whose bits spec/opcode_table.json numbers as `w`: a word of 16
bits, bit 0 its least significant bit, stored high byte first. Every bit above `nbits` is 0. -/
def decodeTableWord (nbits w : Nat) : Option Instr :=
  let word : Half := BitVec.ofNat 16 (w % 2 ^ nbits)
  match decode [highByte word, lowByte word] with
  | .ok (i, _) => some i
  | .error _ => none

end Sys2Proof
end

