-- ==== Sys2Proof/Machine/State.lean ====
section
/-! DEFINITION. The state of the core (spec/10_state.md R10: "the following list and nothing else"), the driver's
commands (spec/45_host_commands.md R170), the six errors (spec/60_exceptions.md R190) and the state after reset (R26). -/

namespace Sys2Proof.Machine

/-- Memory as plain data: the bytes that differ from what an unlisted address reads as (Memory.unlisted), at strictly
rising addresses (R22, R40; log 20). -/
abbrev Memory := List Host.Cell

/-- The framebuffer: 2048 one-bit cells, cell `row * 64 + col`, true = lit (R21). -/
abbrev FrameBuffer := Vector Bool 2048

/-- The driver's commands (R170). Initialize has the same effect as RESET (R171). -/
inductive Command where
  /-- RESET (R171). -/
  | reset
  /-- LOAD of a byte sequence (R172). -/
  | load (bytes : List Byte)
  /-- EXECUTE with its random input `rnd` (R173, R178). -/
  | execute (rnd : Byte)
  /-- TICK (R174). -/
  | tick
  /-- SETKEY(index, pressed); the index is 8 bits (R175; D15, log 12). -/
  | setKey (index : Byte) (pressed : Bool)
  /-- READFB (R176). -/
  | readFb
  deriving DecidableEq, Repr

/-- The state. `v` to `mem` are the core's own (R10). `rnd`, `draws` and `pending` are the MODEL's own: inputs of the
core, which R25 does not count as its state. -/
structure State where
  /-- V0 to VF (R11); `v[15]` is VF, the flag (R12). -/
  v : Vector Byte 16
  /-- The index register (R14). -/
  i : Half
  /-- The program counter (R15). -/
  pc : Half
  /-- The call-stack slots (R17; D17, log 14). -/
  stack : Vector Half 16
  /-- The number of used slots, 0 to 16 (R17). -/
  sp : Fin 17
  /-- The delay timer (R18). -/
  dt : Byte
  /-- The sound timer (R18). -/
  st : Byte
  /-- The key latches, true = pressed (R20). -/
  keys : Vector Bool 16
  /-- The framebuffer (R21). -/
  fb : FrameBuffer
  /-- Memory (R22). -/
  mem : Memory
  /-- MODEL's own: the random input of the EXECUTE being run (R178); `none` when the run names no byte, and then CXNN
  takes a free one (log 5). -/
  rnd : Option Byte
  /-- MODEL's own: how many CXNN have run, the argument of Config.randomByte (log 5). -/
  draws : Nat
  /-- MODEL's own: the commands the driver issues next (R180); when it is empty the driver issues EXECUTE (log 4). -/
  pending : List Command
  deriving DecidableEq, Repr

/-- The six error conditions (R190). No payload: "the error result is its kind only". -/
inductive Error where
  | unknownOpcode
  | stackOverflow
  | stackUnderflow
  | memoryOutOfBounds
  | invalidKeyIndex
  | oversizedLoad
  deriving DecidableEq, Repr

/-- A command that ended with an error. Each constructor carries the state the command left (R198), because the core
stays usable: the driver's next command acts on that state (R197, R202). The kind is the spec's (safe); the state
after it is the spec's own decision D4 (unsafe for a claim about recovery; log 3). -/
inductive Fault where
  /-- Raised by EXECUTE when the fetched word matches no pattern (R191). `PC` advanced by 2. Safe for the kind. -/
  | unknownOpcode (after : State)
  /-- Raised by `2NNN` with a full stack (R192). Safe for the kind. -/
  | stackOverflow (after : State)
  /-- Raised by `00EE` with an empty stack (R193). Safe for the kind. -/
  | stackUnderflow (after : State)
  /-- Raised by the fetch, DXYN, FX33, FX55, FX65 at an address above 4095 (R194). Safe for the kind; the partial
  effects follow D4 (unsafe for a claim about recovery). -/
  | memoryOutOfBounds (after : State)
  /-- Raised by SETKEY, EX9E, EXA1 at a key index above 15 (R195). Safe for the kind. -/
  | invalidKeyIndex (after : State)
  /-- Raised by LOAD at the first byte past address 4095 (R196). Safe for the kind; the bytes stored before it follow
  D16 (unsafe for a claim about recovery; log 13). -/
  | oversizedLoad (after : State)
  deriving DecidableEq, Repr

/-- Instructions without a meaning. -/
inductive Refusal where
  /-- Raised by exec's arm of an instruction that has no meaning yet; no arm does. Safe: nothing runs. -/
  | notModelled (mnemonic : String)
  deriving DecidableEq, Repr

/-- What a command or an instruction answers. -/
abbrev Result := Host.Outcome State Fault Refusal

/-- The state after reset, and equally after power-on (R26, R171, R220, R221). Memory lists nothing: every address
reads as its reset content. The last three fields are the MODEL's own (DESIGN CHOICE, logs 4 and 5). -/
def State.reset : State where
  v := Vector.replicate 16 0
  i := 0
  pc := 0x200
  stack := Vector.replicate 16 0
  sp := 0
  dt := 0
  st := 0
  keys := Vector.replicate 16 false
  fb := Vector.replicate 2048 false
  mem := []
  rnd := none
  draws := 0
  pending := []

end Sys2Proof.Machine
end

