-- ==== Sys2Proof/Machine/Font.lean ====
section
/-! DEFINITION. The font table, the parameter FONT[0..79] (spec/20_memory.md R42). -/

namespace Sys2Proof.Machine

/-- Glyphs 0 to 7 of the default font (R42). -/
def fontLow : List Byte :=
  [0xF0, 0x90, 0x90, 0x90, 0xF0] ++ [0x20, 0x60, 0x20, 0x20, 0x70] ++
  [0xF0, 0x10, 0xF0, 0x80, 0xF0] ++ [0xF0, 0x10, 0xF0, 0x10, 0xF0] ++
  [0x90, 0x90, 0xF0, 0x10, 0x10] ++ [0xF0, 0x80, 0xF0, 0x10, 0xF0] ++
  [0xF0, 0x80, 0xF0, 0x90, 0xF0] ++ [0xF0, 0x10, 0x20, 0x40, 0x40]

/-- Glyphs 8 to F of the default font (R42). -/
def fontHigh : List Byte :=
  [0xF0, 0x90, 0xF0, 0x90, 0xF0] ++ [0xF0, 0x90, 0xF0, 0x10, 0xF0] ++
  [0xF0, 0x90, 0xF0, 0x90, 0x90] ++ [0xE0, 0x90, 0xE0, 0x90, 0xE0] ++
  [0xF0, 0x80, 0x80, 0x80, 0xF0] ++ [0xE0, 0x90, 0x90, 0x90, 0xE0] ++
  [0xF0, 0x80, 0xF0, 0x80, 0xF0] ++ [0xF0, 0x80, 0xF0, 0x80, 0x80]

/-- `FONT[a]` for `a` in 0 to 79. The source gives the layout "and not one byte value"; these bytes are the default
of R42, from general knowledge (PRESUMED, unsafe; log 1). A claim that reads one of them names this function. -/
def fontByte (a : Nat) : Byte := (fontLow ++ fontHigh).getD a 0

end Sys2Proof.Machine
end

