-- ==== Sys2Proof/Machine/Ops.lean ====
section
/-! DEFINITION. The named operations over registers, memory, the stack and the framebuffer, and the one operation that
raises an error (spec/10_state.md, spec/20_memory.md, spec/60_exceptions.md). -/

namespace Sys2Proof.Machine

/-! ## Errors -/

/-- The fault of an error, carrying the state the command left (R190, R198). -/
def Fault.of : Error → State → Fault
  | .unknownOpcode, s => .unknownOpcode s
  | .stackOverflow, s => .stackOverflow s
  | .stackUnderflow, s => .stackUnderflow s
  | .memoryOutOfBounds, s => .memoryOutOfBounds s
  | .invalidKeyIndex, s => .invalidKeyIndex s
  | .oversizedLoad, s => .oversizedLoad s

/-- The kind of a fault, the result the driver receives (R190). -/
def Fault.error : Fault → Error
  | .unknownOpcode _ => .unknownOpcode
  | .stackOverflow _ => .stackOverflow
  | .stackUnderflow _ => .stackUnderflow
  | .memoryOutOfBounds _ => .memoryOutOfBounds
  | .invalidKeyIndex _ => .invalidKeyIndex
  | .oversizedLoad _ => .oversizedLoad

/-- The state in which the failed command left the core, on which the driver's next command acts (R197). -/
def Fault.after : Fault → State
  | .unknownOpcode s => s
  | .stackOverflow s => s
  | .stackUnderflow s => s
  | .memoryOutOfBounds s => s
  | .invalidKeyIndex s => s
  | .oversizedLoad s => s

/-- `raise <Error>`: "ends the current command at once with that error as its result" (R8); it "changes no state by
itself: there is no error register, no sticky fault bit, no halted mode" (R197). This is all there is to taking an
exception on this machine: no saved `PC`, no mode, no handler, no return (R201, R202). -/
def raise (e : Error) (s : State) : Result := .fault (Fault.of e s)

/-! ## General registers -/

/-- `V[x]` (R11). -/
def State.getV (s : State) (x : Reg) : Byte := s.v[x.val]

/-- `V[x] <- b` (R11): no register is hardwired. -/
def State.setV (s : State) (x : Reg) (b : Byte) : State := { s with v := s.v.set x.val b }

/-- The flag register, VF (R12). -/
def regVF : Reg := 15

/-- VF (R12). -/
def State.getVF (s : State) : Byte := s.getV regVF

/-! ## Memory -/

/-- What an address that memory does not list reads as: its reset content (R26, R41): the font below 80, else 0. -/
def Memory.unlisted (a : Nat) : Byte := if a < Config.fontSize then fontByte a else 0

/-- The byte at an address. -/
def Memory.read : Memory → Nat → Byte
  | [], a => Memory.unlisted a
  | (a', b') :: m, a => if a' = a then b' else Memory.read m a

/-- List a byte at an address, keeping the addresses rising. -/
def Memory.put : Memory → Nat → Byte → Memory
  | [], a, b => [(a, b)]
  | (a', b') :: m, a, b =>
    if a < a' then (a, b) :: (a', b') :: m
    else if a = a' then (a, b) :: m
    else (a', b') :: Memory.put m a b

/-- Take an address out of the list, every entry of it. -/
def Memory.remove : Memory → Nat → Memory
  | [], _ => []
  | (a', b') :: m, a => if a' = a then Memory.remove m a else (a', b') :: Memory.remove m a

/-- Write a byte, keeping the canonical form: a byte equal to what an unlisted address reads as is not listed. -/
def Memory.write (m : Memory) (a : Nat) (b : Byte) : Memory :=
  if b = Memory.unlisted a then Memory.remove m a else Memory.put m a b

/-- The canonical form from address `lo` on: addresses strictly rising, all in the address space, no entry equal to
what an unlisted address reads as. -/
def Memory.wfFrom (lo : Nat) : Memory → Bool
  | [] => true
  | (a, b) :: m =>
    decide (lo ≤ a) && decide (a < Config.memSize) && decide (b ≠ Memory.unlisted a) && Memory.wfFrom (a + 1) m

/-- The canonical form of memory (log 20). -/
def Memory.wf (m : Memory) : Bool := Memory.wfFrom 0 m

/-- `MemRead(addr, 1)`: `none` stands for `raise MemoryOutOfBounds`, at an address above 4095 (R43). -/
def State.readMem (s : State) (a : Nat) : Option Byte :=
  if a < Config.memSize then some (s.mem.read a) else none

/-- `MEM[addr] <- v` at an address in bounds; `MemWrite` is this behind its check (R43). -/
def State.setMem (s : State) (a : Nat) (b : Byte) : State := { s with mem := s.mem.write a b }

/-- `MemWrite(addr, 1, v)`: `none` stands for `raise MemoryOutOfBounds` (R43). -/
def State.writeMem (s : State) (a : Nat) (b : Byte) : Option State :=
  if a < Config.memSize then some (s.setMem a b) else none

/-- Store bytes at ascending addresses, each checked when it is reached; at the first address above 4095 the error `e`
is raised and the bytes before it stay (R43, R47, R198). FX33 and FX55 raise MemoryOutOfBounds, LOAD OversizedLoad. -/
def storeBytes (e : Error) : List Byte → Nat → State → Result
  | [], _, s => .next s
  | b :: bs, a, s =>
    match s.writeMem a b with
    | some t => storeBytes e bs (a + 1) t
    | none => raise e s

/-- Load registers from ascending addresses, each read checked when it is reached; the registers before a failing
read keep their new values (R43, R125, R198). -/
def loadBytes : List Reg → Nat → State → Result
  | [], _, s => .next s
  | x :: xs, a, s =>
    match s.readMem a with
    | some b => loadBytes xs (a + 1) (s.setV x b)
    | none => raise .memoryOutOfBounds s

/-! ## Program counter and call stack -/

/-- `PC <- target` (R8); the target is not checked (R90). -/
def State.jump (s : State) (target : Half) : State := { s with pc := target }

/-- A taken skip adds a further 2 to `PC` (R89). -/
def State.skipIf (s : State) (taken : Bool) : State :=
  if taken then s.jump (s.pc + Config.instrBytes) else s

/-- Push `PC`; `none` when all 16 slots are used (R17, R83). -/
def State.push (s : State) : Option State :=
  if h : s.sp.val < 16 then
    some { s with stack := s.stack.set s.sp.val s.pc, sp := ⟨s.sp.val + 1, by omega⟩ }
  else none

/-- Pop into `PC`; `none` when the stack is empty. The popped slot keeps its value (R17, R81; D17, log 14). -/
def State.pop (s : State) : Option State :=
  if h : 0 < s.sp.val then
    some { s with sp := ⟨s.sp.val - 1, by omega⟩, pc := s.stack[s.sp.val - 1] }
  else none

/-! ## Framebuffer -/

/-- The cell of a pixel, both coordinates folded: `(row mod 32) * 64 + (col mod 64)` (R21, R141). -/
def cellOf (row col : Nat) : Fin 2048 :=
  ⟨row % Config.fbHeight * Config.fbWidth + col % Config.fbWidth, by simp only [Config.fbHeight, Config.fbWidth]; omega⟩

/-- `FB[k]` (R8). -/
def FrameBuffer.pixel (fb : FrameBuffer) (k : Fin 2048) : Bool := fb[k.val]

/-- XOR a lit sprite bit onto a cell: `FB[k] <- not FB[k]` (R141). -/
def FrameBuffer.toggle (fb : FrameBuffer) (k : Fin 2048) : FrameBuffer := fb.set k.val (!fb[k.val])

/-- Bits of one sprite byte, the columns `cs` of it, column 0 its most significant bit: each lit bit toggles its pixel
and reports a collision if the pixel was lit (R141). -/
def drawBits (b : Byte) (row col : Nat) : List Nat → FrameBuffer × Bool → FrameBuffer × Bool
  | [], acc => acc
  | c :: cs, (fb, hit) =>
    if b.getMsbD c then
      let k := cellOf row (col + c)
      drawBits b row col cs (fb.toggle k, hit || fb.pixel k)
    else drawBits b row col cs (fb, hit)

/-- One sprite row, 8 columns (R141). -/
def drawByte (b : Byte) (row col : Nat) (acc : FrameBuffer × Bool) : FrameBuffer × Bool :=
  drawBits b row col (List.range 8) acc

end Sys2Proof.Machine
end

