-- ==== Sys2Proof/Machine/Operands.lean ====
section
/-! DEFINITION. The operand forms: what an instruction makes of its fields and registers before it acts
(spec/30_encoding.md R63, spec/42_index_memory.md, spec/44_keypad_timers.md). Immediates are used as they stand. -/

namespace Sys2Proof.Machine

/-- The effective address `I + k`: "computed as natural numbers with no reduction modulo 4096 or 65536"
(R56, R127). -/
def State.effAddr (s : State) (k : Nat) : Nat := s.i.toNat + k

/-- Registers V0 to VX, in ascending order (R124, R125). -/
def regsUpTo (x : Reg) : List Reg := (List.finRange 16).take (x.val + 1)

/-- The values of V0 to VX, in ascending order (R124). -/
def State.valuesUpTo (s : State) (x : Reg) : List Byte := (regsUpTo x).map s.getV

/-- The decimal digits of a byte, hundreds first (R123). -/
def bcdDigits (b : Byte) : List Byte :=
  [BitVec.ofNat 8 (b.toNat / 100), BitVec.ofNat 8 (b.toNat / 10 % 10), BitVec.ofNat 8 (b.toNat % 10)]

/-- `5 * zext_16(V[x])`, the address of a glyph; the whole byte is used (R122). -/
def glyphAddr (b : Byte) : Half := BitVec.ofNat 16 (Config.glyphBytes * b.toNat)

/-- A byte as a key number; `none` stands for `raise InvalidKeyIndex`, above 15 (R150, R175). It is not masked. -/
def keyNumber (b : Byte) : Option Key :=
  if h : b.toNat < 16 then some ⟨b.toNat, h⟩ else none

/-- The lowest-numbered pressed key: "Scans key latches 0–15 in ascending index order" (R153). -/
def State.lowestKey (s : State) : Option Key := (List.finRange 16).find? (fun k => s.keys[k.val])

/-- A key's number as a byte (R153). -/
def keyByte (k : Key) : Byte := BitVec.ofNat 8 k.val

/-- The target of `BNNN`: `V[0] + NNN`, not reduced to 12 bits (R88). -/
def State.offsetTarget (s : State) (nnn : BitVec 12) : Half := zext16 (s.getV 0) + zextAddr nnn

/-- The random byte of this `CXNN`: the driver's `rnd` (R111, R178), or a free value where the run names none
(log 5). -/
def State.randomByte (s : State) : Byte :=
  match s.rnd with
  | some b => b
  | none => Config.randomByte s.draws

end Sys2Proof.Machine
end

