-- ==== Sys2Proof/Machine/Flags.lean ====
section
/-! DEFINITION. Every flag computation (spec/10_state.md R12) and the order of the flag write (R13). -/

namespace Sys2Proof.Machine

/-- "A flag write always stores exactly 0 or 1" (R12). -/
def flagByte (b : Bool) : Byte := if b then 1 else 0

/-- Carry of `a + b`: the exact sum passes 255 (R106). -/
def carryOf (a b : Byte) : Bool := decide (a.toNat + b.toNat > 255)

/-- No borrow in `a - b`, the inverted-borrow convention: `a >= b` (R107, R109). -/
def noBorrowOf (a b : Byte) : Bool := decide (b.toNat ≤ a.toNat)

/-- The bit a right shift drops (R108; C1, D2, log 6). -/
def droppedByShr (a : Byte) : Bool := a.getLsbD 0

/-- The bit a left shift drops (R110). -/
def droppedByShl (a : Byte) : Bool := a.getMsbD 0

/-- Write VF as a flag (R12). -/
def State.setFlag (s : State) (b : Bool) : State := s.setV regVF (flagByte b)

/-- The result into `V[x]`, then the flag into VF, last: with `x` = 15 the flag wins (R13; C2, D3, log 7). -/
def State.setResultAndFlag (s : State) (x : Reg) (result : Byte) (flag : Bool) : State :=
  (s.setV x result).setFlag flag

end Sys2Proof.Machine
end

