-- ==== Sys2Proof/Machine/Alu.lean ====
section
/-! DEFINITION. Register load, arithmetic, logic, shift and random instructions (spec/41_alu.md). All register
operands are read before any register is written (R113). -/

namespace Sys2Proof.Machine

/-- `6XNN` LD Vx, nn (R100). -/
def execLdImm (x : Reg) (nn : Byte) (s : State) : Result := .next (s.setV x nn)

/-- `7XNN` ADD Vx, nn (R101): modulo 256, no flag. -/
def execAddImm (x : Reg) (nn : Byte) (s : State) : Result := .next (s.setV x (s.getV x + nn))

/-- `8XY0` LD Vx, Vy (R102). -/
def execLdReg (x y : Reg) (s : State) : Result := .next (s.setV x (s.getV y))

/-- `8XY1` OR Vx, Vy (R103): VF is not written. -/
def execOrReg (x y : Reg) (s : State) : Result := .next (s.setV x (s.getV x ||| s.getV y))

/-- `8XY2` AND Vx, Vy (R104): VF is not written. -/
def execAndReg (x y : Reg) (s : State) : Result := .next (s.setV x (s.getV x &&& s.getV y))

/-- `8XY3` XOR Vx, Vy (R105): VF is not written. -/
def execXorReg (x y : Reg) (s : State) : Result := .next (s.setV x (s.getV x ^^^ s.getV y))

/-- `8XY4` ADD Vx, Vy (R106). -/
def execAddReg (x y : Reg) (s : State) : Result :=
  let a := s.getV x
  let b := s.getV y
  .next (s.setResultAndFlag x (a + b) (carryOf a b))

/-- `8XY5` SUB Vx, Vy (R107). -/
def execSubReg (x y : Reg) (s : State) : Result :=
  let a := s.getV x
  let b := s.getV y
  .next (s.setResultAndFlag x (a - b) (noBorrowOf a b))

/-- `8XY6` SHR Vx (R108): `V[Y]` is not used (R67). -/
def execShr (x _y : Reg) (s : State) : Result :=
  let a := s.getV x
  .next (s.setResultAndFlag x (a >>> 1) (droppedByShr a))

/-- `8XY7` SUBN Vx, Vy (R109). -/
def execSubnReg (x y : Reg) (s : State) : Result :=
  let a := s.getV x
  let b := s.getV y
  .next (s.setResultAndFlag x (b - a) (noBorrowOf b a))

/-- `8XYE` SHL Vx (R110): `V[Y]` is not used (R67). -/
def execShl (x _y : Reg) (s : State) : Result :=
  let a := s.getV x
  .next (s.setResultAndFlag x (a <<< 1) (droppedByShl a))

/-- `CXNN` RND Vx, nn (R111). The draw counter is the model's own, so that the next free byte is a fresh one (log 5). -/
def execRnd (x : Reg) (nn : Byte) (s : State) : Result :=
  .next { s.setV x (s.randomByte &&& nn) with draws := s.draws + 1 }

end Sys2Proof.Machine
end

