-- ==== Sys2Proof/Machine/ControlFlow.lean ====
section
/-! DEFINITION. The control-flow instructions (spec/40_control_flow.md). On entry `PC` already holds the address of
the next instruction. -/

namespace Sys2Proof.Machine

/-- `0000` NOP (R80). -/
def execNop (s : State) : Result := .next s

/-- `00EE` RET (R81, R193). -/
def execRet (s : State) : Result :=
  match s.pop with
  | some t => .next t
  | none => raise .stackUnderflow s

/-- `1NNN` JP nnn (R82). -/
def execJp (nnn : BitVec 12) (s : State) : Result := .next (s.jump (zextAddr nnn))

/-- `2NNN` CALL nnn (R83, R192): the pushed address is that of the following instruction. -/
def execCall (nnn : BitVec 12) (s : State) : Result :=
  match s.push with
  | some t => .next (t.jump (zextAddr nnn))
  | none => raise .stackOverflow s

/-- `3XNN` SE Vx, nn (R84, R89). -/
def execSeImm (x : Reg) (nn : Byte) (s : State) : Result := .next (s.skipIf (s.getV x == nn))

/-- `4XNN` SNE Vx, nn (R85, R89). -/
def execSneImm (x : Reg) (nn : Byte) (s : State) : Result := .next (s.skipIf (s.getV x != nn))

/-- `5XY0` SE Vx, Vy (R86, R89). -/
def execSeReg (x y : Reg) (s : State) : Result := .next (s.skipIf (s.getV x == s.getV y))

/-- `9XY0` SNE Vx, Vy (R87, R89). -/
def execSneReg (x y : Reg) (s : State) : Result := .next (s.skipIf (s.getV x != s.getV y))

/-- `BNNN` JP V0, nnn (R88). -/
def execJpV0 (nnn : BitVec 12) (s : State) : Result := .next (s.jump (s.offsetTarget nnn))

end Sys2Proof.Machine
end

