-- ==== Sys2Proof/Machine/Display.lean ====
section
/-! DEFINITION. The display instructions (spec/43_display.md). -/

namespace Sys2Proof.Machine

/-- `00E0` CLS (R140). -/
def execCls (s : State) : Result := .next { s with fb := Vector.replicate 2048 false }

/-- The sprite rows `rs` of a draw at (`x`, `y`), in order; the rows before a failing read stay drawn and VF is then not
written (R141, R198). -/
def drawRows (x y : Byte) : List Nat → Bool → State → Result
  | [], hit, s => .next (s.setFlag hit)
  | r :: rs, hit, s =>
    match s.readMem (s.effAddr r) with
    | none => raise .memoryOutOfBounds s
    | some b =>
      let drawn := drawByte b (y.toNat + r) x.toNat (s.fb, hit)
      drawRows x y rs drawn.2 { s with fb := drawn.1 }

/-- `DXYN` DRW Vx, Vy, n (R141, R194): the coordinates are read first, VF is written last. -/
def execDrw (x y : Reg) (n : BitVec 4) (s : State) : Result :=
  drawRows (s.getV x) (s.getV y) (List.range n.toNat) false s

end Sys2Proof.Machine
end

