-- ==== Sys2Proof/Machine/IndexMemory.lean ====
section
/-! DEFINITION. Index-register and memory instructions (spec/42_index_memory.md). No memory instruction changes `I`
(R126). -/

namespace Sys2Proof.Machine

/-- `ANNN` LD I, nnn (R120). -/
def execLdI (nnn : BitVec 12) (s : State) : Result := .next { s with i := zextAddr nnn }

/-- `FX1E` ADD I, Vx (R121): modulo 65536, VF not written (D10, log 8). -/
def execAddI (x : Reg) (s : State) : Result := .next { s with i := s.i + zext16 (s.getV x) }

/-- `FX29` LD F, Vx (R122). -/
def execLdF (x : Reg) (s : State) : Result := .next { s with i := glyphAddr (s.getV x) }

/-- `FX33` LD B, Vx (R123, R194). -/
def execLdB (x : Reg) (s : State) : Result :=
  storeBytes .memoryOutOfBounds (bcdDigits (s.getV x)) (s.effAddr 0) s

/-- `FX55` LD [I], Vx (R124, R194). -/
def execStoreRegs (x : Reg) (s : State) : Result :=
  storeBytes .memoryOutOfBounds (s.valuesUpTo x) (s.effAddr 0) s

/-- `FX65` LD Vx, [I] (R125, R194; C4, log 11). -/
def execLoadRegs (x : Reg) (s : State) : Result := loadBytes (regsUpTo x) (s.effAddr 0) s

end Sys2Proof.Machine
end

