-- ==== Sys2Proof/Machine/KeypadTimers.lean ====
section
/-! DEFINITION. Keypad and timer instructions (spec/44_keypad_timers.md). -/

namespace Sys2Proof.Machine

/-- `EX9E` SKP Vx (R150, R195). -/
def execSkp (x : Reg) (s : State) : Result :=
  match keyNumber (s.getV x) with
  | some k => .next (s.skipIf s.keys[k.val])
  | none => raise .invalidKeyIndex s

/-- `EXA1` SKNP Vx (R151, R195). -/
def execSknp (x : Reg) (s : State) : Result :=
  match keyNumber (s.getV x) with
  | some k => .next (s.skipIf (!s.keys[k.val]))
  | none => raise .invalidKeyIndex s

/-- `FX07` LD Vx, DT (R152). -/
def execLdVxDt (x : Reg) (s : State) : Result := .next (s.setV x s.dt)

/-- `FX0A` LD Vx, K (R153): with no key pressed `PC` is rewound by 2, which is not an error (R203). -/
def execLdVxK (x : Reg) (s : State) : Result :=
  match s.lowestKey with
  | some k => .next (s.setV x (keyByte k))
  | none => .next (s.jump (s.pc - Config.instrBytes))

/-- `FX15` LD DT, Vx (R154). -/
def execLdDtVx (x : Reg) (s : State) : Result := .next { s with dt := s.getV x }

/-- `FX18` LD ST, Vx (R155). -/
def execLdStVx (x : Reg) (s : State) : Result := .next { s with st := s.getV x }

end Sys2Proof.Machine
end

