-- ==== Sys2Proof/Machine/Commands.lean ====
section
/-! DEFINITION. The six commands of the driver and what it receives back (spec/45_host_commands.md). -/

namespace Sys2Proof.Machine

/-! ## EXECUTE: fetch, decode, execute (R173) -/

/-- The two bytes at `PC` and `PC + 1`; `none` stands for `raise MemoryOutOfBounds` (R173, R194). `PC + 1` does not
wrap (R56). -/
def State.fetchBytes (s : State) : Option (Byte × Byte) :=
  match s.readMem s.pc.toNat, s.readMem (s.pc.toNat + 1) with
  | some hi, some lo => some (hi, lo)
  | _, _ => none

/-- The state in which an instruction executes: `PC` advanced by 2 (R173) and the random input of this EXECUTE set
(R178). -/
def State.enter (s : State) (rnd : Option Byte) : State :=
  { s with pc := s.pc + Config.instrBytes, rnd := rnd }

/-- EXECUTE (R173). A fetch error leaves `PC` where it was; a decode error comes after the advance (R191). -/
def executeCommand (rnd : Option Byte) (s : State) : Result :=
  match s.fetchBytes with
  | none => raise .memoryOutOfBounds s
  | some (hi, lo) =>
    match decode [hi, lo] with
    | .error _ => raise .unknownOpcode (s.enter rnd)
    | .ok (i, _) => exec i (s.enter rnd)

/-! ## The other commands -/

/-- RESET (R171): every piece of the core's state back to its reset value. The driver's own list and the draw counter
are no state of the core (R25) and stay (log 23). -/
def resetCommand (s : State) : Result :=
  .next { State.reset with rnd := s.rnd, draws := s.draws, pending := s.pending }

/-- LOAD (R172): byte `k` to address `0x200 + k`; OversizedLoad at the first byte past 4095 (D16, log 13). -/
def loadCommand (bytes : List Byte) (s : State) : Result := storeBytes .oversizedLoad bytes Config.start s

/-- "decrements by 1 if nonzero" (R174). -/
def tickDown (b : Byte) : Byte := if b = 0 then 0 else b - 1

/-- TICK's effect on the state (R174). -/
def tickCommand (s : State) : Result := .next { s with dt := tickDown s.dt, st := tickDown s.st }

/-- TICK's result: `ST` was exactly 1 before the decrement (R174; D19, log 15). -/
def State.tone (s : State) : Bool := s.st == 1

/-- SETKEY (R175). -/
def setKeyCommand (index : Byte) (pressed : Bool) (s : State) : Result :=
  match keyNumber index with
  | some k => .next { s with keys := s.keys.set k.val pressed }
  | none => raise .invalidKeyIndex s

/-- READFB changes nothing (R176). -/
def readFbCommand (s : State) : Result := .next s

/-- What a command does to the state (R170). -/
def command (c : Command) (s : State) : Result :=
  match c with
  | .reset => resetCommand s
  | .load bytes => loadCommand bytes s
  | .execute rnd => executeCommand (some rnd) s
  | .tick => tickCommand s
  | .setKey index pressed => setKeyCommand index pressed s
  | .readFb => readFbCommand s

/-! ## What the driver receives (R177) -/

/-- The result of a command: "ok or one of six errors", the tone of TICK, the view of READFB (R177). -/
inductive Response where
  /-- The command succeeded and returns nothing else. -/
  | ok
  /-- TICK's boolean (R174). -/
  | tone (emit : Bool)
  /-- READFB's 2048 booleans, element `row * 64 + col` (R176; D22). -/
  | view (fb : FrameBuffer)
  /-- The command ended with an error (R190). -/
  | error (e : Error)
  /-- The model refused the command; no command does. -/
  | refused (r : Refusal)
  deriving DecidableEq, Repr

/-- What a command that succeeds returns, issued in a state: TICK its tone, READFB its view, the others ok (R177). -/
def successResponse (c : Command) (s : State) : Response :=
  match c with
  | .tick => .tone s.tone
  | .readFb => .view s.fb
  | .reset => .ok
  | .load _ => .ok
  | .execute _ => .ok
  | .setKey _ _ => .ok

/-- The response of a command issued in a state (R170, R177). It is held nowhere in the core (R23). -/
def response (c : Command) (s : State) : Response :=
  match command c s with
  | .next _ => successResponse c s
  | .fault f => .error f.error
  | .refused r => .refused r

/-- The state in which a command leaves the core, whether it succeeded or ended with an error (R197, R198). -/
def stateAfter (c : Command) (s : State) : State :=
  match command c s with
  | .next t => t
  | .fault f => f.after
  | .refused _ => s

/-- A driver that issues the commands in order whatever their results (R197, R202: "any command may follow"): the
responses, and the state at the end. -/
def runCommands : List Command → State → List Response × State
  | [], s => ([], s)
  | c :: cs, s =>
    let rest := runCommands cs (stateAfter c s)
    (response c s :: rest.1, rest.2)

/-- `ERRCODE`, the default numbers (R190; D5, log 2); 0 stands for ok. No rule depends on a number. -/
def Error.code : Error → Nat
  | .unknownOpcode => 1
  | .stackOverflow => 2
  | .stackUnderflow => 3
  | .memoryOutOfBounds => 4
  | .invalidKeyIndex => 5
  | .oversizedLoad => 6

/-! ## Placing an instruction -/

/-- Store an instruction word at an address, high byte first (R45). -/
def State.placeWord (s : State) (a : Nat) (w : Half) : State :=
  (s.setMem a (highByte w)).setMem (a + 1) (lowByte w)

end Sys2Proof.Machine
end

