-- ==== Sys2Proof/Machine/Step.lean ====
section
/-! DEFINITION. One step of the machine: the driver's next command, run whole (spec/45_host_commands.md R179). -/

namespace Sys2Proof.Machine

/-- One step is one command (R179, R229). The driver's next command is the head of `pending`; when the list is empty
the driver issues EXECUTE, and the random byte is free (logs 4 and 5). -/
def step (s : State) : Host.Outcome State Fault Refusal :=
  match s.pending with
  | [] => executeCommand none s
  | c :: rest => command c { s with pending := rest }

/-- The address `withFetchWord` places its word at: `PC`, or the start address where no word can be fetched at `PC`
(R173: a fetch needs `PC <= 4094`). -/
def State.fetchPlace (s : State) : Half := if s.pc.toNat + 1 < Config.memSize then s.pc else 0x200

/-- The state with an instruction placed where the next step fetches it: its two bytes at `PC`, and no command of the
driver before the EXECUTE that runs it. -/
def State.withFetchWord (s : State) (nbits w : Nat) : State :=
  let placed := s.placeWord s.fetchPlace.toNat (BitVec.ofNat 16 (w % 2 ^ nbits))
  { placed with pc := s.fetchPlace, pending := [] }

end Sys2Proof.Machine
end

