-- ==== Sys2Proof/Safety.lean ====
section
/-! DEFINITION. The terms in which claims speak of a run: the invariant of the machine (spec/10_state.md R16, R17), a
safe step, the driver's contract (spec/70_reset_and_hazards.md R225, R226), the end of a run (R182). -/

namespace Sys2Proof.Machine

/-- `PC` is in 0 to 0x10FE (R16). -/
def State.pcInRange (s : State) : Prop := s.pc.toNat ≤ 0x10FE

/-- Every used stack slot holds an address a call can push: at most 4096 (R16, R17). -/
def State.stackInRange (s : State) : Prop :=
  ∀ k : Fin 16, k.val < s.sp.val → s.stack[k.val].toNat ≤ 4096

/-- The invariant every command keeps. -/
structure State.Inv (s : State) : Prop where
  pcRange    : s.pcInRange
  stackRange : s.stackInRange
  memory     : s.mem.wf = true

/-- A command the driver's contract allows: a key index in 0 to 15 (R170) and an image that fits (R226). Any other is
answered with an error. -/
def Command.wellFormed : Command → Bool
  | .setKey index _ => decide (index.toNat < 16)
  | .load bytes => decide (bytes.length ≤ 3584)
  | .reset => true
  | .execute _ => true
  | .tick => true
  | .readFb => true

/-- The next step ends without an error. -/
def State.safeStep (s : State) : Prop := ∃ t, step s = .next t

/-- The suggested end of a run: "`PC <= 4094` and `MEM[PC] : MEM[PC+1] == 0x1000 | PC`" (R182; D18, log 16). -/
def State.atSelfJump (s : State) : Prop :=
  ∃ hi lo, s.fetchBytes = some (hi, lo) ∧ wordOfBytes hi lo = 0x1000 ||| s.pc

end Sys2Proof.Machine
end

