-- ==== Sys2Proof/Certificates/Slice0/Obligations.lean ====
section
/-! DEFINITION. The statements for the provers. Each docstring names the rule of spec/ it formalises; a statement that
rests on a decision of the spec or of this model says so and names the log entry. -/

namespace Sys2Proof.Claims

open Sys2Proof.Machine

/-- An instruction word written as a number (R8, R61). -/
abbrev word (n : Nat) : Half := BitVec.ofNat 16 n

/-- The word decodes to the instruction. -/
def Decodes (n : Nat) (i : Instr) : Prop := decodeWord (word n) = .ok i

/-- The parts of the state, for frames. `inputs` are the model's own fields `rnd` and `pending`, `draws` the model's
draw counter. -/
inductive Part where
  | regs | index | pc | stack | sp | delay | sound | keys | fb | mem | inputs | draws
  deriving DecidableEq, Repr

/-- The part is the same in both states. Memory is compared byte by byte through the model's read of one byte. -/
def SamePart (s t : State) : Part → Prop
  | .regs => ∀ r, t.getV r = s.getV r
  | .index => t.i = s.i
  | .pc => t.pc = s.pc
  | .stack => ∀ k : Fin 16, t.stack[k.val] = s.stack[k.val]
  | .sp => t.sp = s.sp
  | .delay => t.dt = s.dt
  | .sound => t.st = s.st
  | .keys => ∀ k : Key, t.keys[k.val] = s.keys[k.val]
  | .fb => ∀ k : Fin 2048, t.fb[k.val] = s.fb[k.val]
  | .mem => ∀ a, t.readMem a = s.readMem a
  | .inputs => t.rnd = s.rnd ∧ t.pending = s.pending
  | .draws => t.draws = s.draws

/-- Every part but the listed ones is the same in both states. -/
def SameExcept (changed : List Part) (s t : State) : Prop := ∀ p, p ∉ changed → SamePart s t p

/-- Every register but the listed ones is the same in both states. -/
def SameRegsExcept (changed : List Reg) (s t : State) : Prop := ∀ r, r ∉ changed → t.getV r = s.getV r

/-- The instruction word at `PC` is the one of `i` (R45, R173). -/
def FetchesInstr (s : State) (i : Instr) : Prop :=
  ∃ hi lo, s.readMem s.pc.toNat = some hi ∧ s.readMem (s.pc.toNat + 1) = some lo ∧
    decodeWord (BitVec.ofNat 16 (256 * hi.toNat + lo.toNat)) = .ok i

/-- What R28's table lets an instruction write in a state, `PC` aside from the fetch: a skip writes `PC` only if it is
taken, FX0A writes VX if a key is pressed, else `PC`. -/
def partsWritten : Instr → State → List Part
  | .nop, _ => []
  | .cls, _ => [.fb]
  | .ret, _ => [.sp, .pc]
  | .jp _, _ => [.pc]
  | .call _, _ => [.stack, .sp, .pc]
  | .seImm x nn, s => if s.getV x = nn then [.pc] else []
  | .sneImm x nn, s => if s.getV x = nn then [] else [.pc]
  | .seReg x y, s => if s.getV x = s.getV y then [.pc] else []
  | .ldImm _ _, _ => [.regs]
  | .addImm _ _, _ => [.regs]
  | .ldReg _ _, _ => [.regs]
  | .orReg _ _, _ => [.regs]
  | .andReg _ _, _ => [.regs]
  | .xorReg _ _, _ => [.regs]
  | .addReg _ _, _ => [.regs]
  | .subReg _ _, _ => [.regs]
  | .shr _ _, _ => [.regs]
  | .subnReg _ _, _ => [.regs]
  | .shl _ _, _ => [.regs]
  | .sneReg x y, s => if s.getV x = s.getV y then [] else [.pc]
  | .ldI _, _ => [.index]
  | .jpV0 _, _ => [.pc]
  | .rnd _ _, _ => [.regs, .draws]
  | .drw _ _ _, _ => [.fb, .regs]
  | .skp x, s => if ∃ k : Key, (s.getV x).toNat = k.val ∧ s.keys[k.val] = true then [.pc] else []
  | .sknp x, s => if ∃ k : Key, (s.getV x).toNat = k.val ∧ s.keys[k.val] = false then [.pc] else []
  | .ldVxDt _, _ => [.regs]
  | .ldVxK _, s => if ∃ k : Key, s.keys[k.val] = true then [.regs] else [.pc]
  | .ldDtVx _, _ => [.delay]
  | .ldStVx _, _ => [.sound]
  | .addI _, _ => [.index]
  | .ldF _, _ => [.index]
  | .ldB _, _ => [.mem]
  | .storeRegs _, _ => [.mem]
  | .loadRegs _, _ => [.regs]

/-- How many bytes from `I` upward R28's table lets an instruction write: three for FX33, `X` + 1 for FX55. -/
def bytesWritten : Instr → Nat
  | .ldB _ => 3
  | .storeRegs x => x.val + 1
  | .nop | .cls | .ret | .jp _ | .call _ | .seImm _ _ | .sneImm _ _ | .seReg _ _ | .ldImm _ _ | .addImm _ _ | .ldReg _ _
  | .orReg _ _ | .andReg _ _ | .xorReg _ _ | .addReg _ _ | .subReg _ _ | .shr _ _ | .subnReg _ _ | .shl _ _
  | .sneReg _ _ | .ldI _ | .jpV0 _ | .rnd _ _ | .drw _ _ _ | .skp _ | .sknp _ | .ldVxDt _ | .ldVxK _ | .ldDtVx _
  | .ldStVx _ | .addI _ | .ldF _ | .loadRegs _ => 0

/-- The registers R28's table lets an instruction write: its `X`, `VF` for the flag instructions, V0 to VX for FX65. -/
def regsWritten : Instr → Reg → Bool
  | .ldImm x _, r => r == x
  | .addImm x _, r => r == x
  | .ldReg x _, r => r == x
  | .orReg x _, r => r == x
  | .andReg x _, r => r == x
  | .xorReg x _, r => r == x
  | .addReg x _, r => r == x || r == 15
  | .subReg x _, r => r == x || r == 15
  | .shr x _, r => r == x || r == 15
  | .subnReg x _, r => r == x || r == 15
  | .shl x _, r => r == x || r == 15
  | .rnd x _, r => r == x
  | .drw _ _ _, r => r == 15
  | .ldVxDt x, r => r == x
  | .ldVxK x, r => r == x
  | .loadRegs x, r => decide (r ≤ x)
  | .nop, _ | .cls, _ | .ret, _ | .jp _, _ | .call _, _ | .seImm _ _, _ | .sneImm _ _, _ | .seReg _ _, _
  | .sneReg _ _, _ | .ldI _, _ | .jpV0 _, _ | .skp _, _ | .sknp _, _ | .ldDtVx _, _ | .ldStVx _, _ | .addI _, _
  | .ldF _, _ | .ldB _, _ | .storeRegs _, _ => false

/-- The error kinds R190's table lets the execute part of an instruction raise; at most one each (R199). -/
def errorsRaised : Instr → List Error
  | .ret => [.stackUnderflow]
  | .call _ => [.stackOverflow]
  | .drw _ _ _ => [.memoryOutOfBounds]
  | .skp _ => [.invalidKeyIndex]
  | .sknp _ => [.invalidKeyIndex]
  | .ldB _ => [.memoryOutOfBounds]
  | .storeRegs _ => [.memoryOutOfBounds]
  | .loadRegs _ => [.memoryOutOfBounds]
  | .nop | .cls | .jp _ | .seImm _ _ | .sneImm _ _ | .seReg _ _ | .ldImm _ _ | .addImm _ _ | .ldReg _ _ | .orReg _ _
  | .andReg _ _ | .xorReg _ _ | .addReg _ _ | .subReg _ _ | .shr _ _ | .subnReg _ _ | .shl _ _ | .sneReg _ _ | .ldI _
  | .jpV0 _ | .rnd _ _ | .ldVxDt _ | .ldVxK _ | .ldDtVx _ | .ldStVx _ | .addI _ | .ldF _ => []

/-- The sprite's row `r`, column `c` is a 1 bit and lands on cell `k`, the sprite's corner being at column `x`, row `y`
and its bytes at `I` upward (R141). -/
def SpriteBitOn (s : State) (x y : Byte) (r c : Nat) (k : Fin 2048) : Prop :=
  (s.mem.read (s.i.toNat + r)).getLsbD (7 - c) = true ∧
    k.val = (y.toNat + r) % 32 * 64 + (x.toNat + c) % 64

/-- Some 1 bit of the sprite's first `n` rows lands on cell `k` (R141, R142). -/
def SpriteCovers (s : State) (x y : Byte) (n : Nat) (k : Fin 2048) : Prop :=
  ∃ r c, r < n ∧ c < 8 ∧ SpriteBitOn s x y r c k

/-- The fetch at `PC` succeeds and gives the stored bytes: where `stored a c` says that byte `c` was stored at address
`a`, the byte fetched from that address is `c`, be it the first byte of the word, the second or both (R53). -/
def FetchSees (t : State) (stored : Nat → Byte → Prop) : Prop :=
  ∃ hi lo, t.fetchBytes = some (hi, lo) ∧ (∀ c, stored t.pc.toNat c → hi = c) ∧
    (∀ c, stored (t.pc.toNat + 1) c → lo = c)

/-- Decimal digit `k` of a byte, the hundreds being digit 0 (R123). -/
def decimalDigit (b : Byte) (k : Nat) : Byte := BitVec.ofNat 8 (b.toNat / 10 ^ (2 - k) % 10)

end Sys2Proof.Claims

open Sys2Proof Sys2Proof.Machine Sys2Proof.Claims

/-! ## Encoding -/

/-- Words written out from the patterns of R65, one or more of every family. -/
def Obligations.WrittenWordsDecode : Prop :=
  Decodes 0x0000 .nop ∧ Decodes 0x00E0 .cls ∧ Decodes 0x00EE .ret ∧ Decodes 0x2ABC (.call 0xABC) ∧
  Decodes 0x5AB0 (.seReg 10 11) ∧ Decodes 0x6A2F (.ldImm 10 0x2F) ∧ Decodes 0x8F3E (.shl 15 3) ∧
  Decodes 0xBFFF (.jpV0 0xFFF) ∧ Decodes 0xD123 (.drw 1 2 3) ∧ Decodes 0xE19E (.skp 1) ∧
  Decodes 0xF70A (.ldVxK 7) ∧ Decodes 0xF233 (.ldB 2) ∧ Decodes 0xFF65 (.loadRegs 15) ∧
  decodeWord 0x5121 = .error (.unknownOpcode 0x5121) ∧ decodeWord 0x8128 = .error (.unknownOpcode 0x8128)

/-- Decoding the two bytes of any instruction gives it back, with whatever bytes follow left over: every operand at
every value its field admits (R60, R61, R64, R65). Every `Instr` is well-formed by its types. -/
def Obligations.DecodeOfEncode : Prop :=
  ∀ (i : Instr) (rest : List Byte),
    i.wellFormed = true ∧ decodeWord (encode i) = .ok i ∧ decode (encodeBytes i ++ rest) = .ok (i, rest)

/-- A word that decodes is exactly the word of the instruction it decodes to, so no two words are one instruction and no
bit of a word is dropped (R64, R65; the ignored `Y` of R67 is kept in the constructor). -/
def Obligations.EncodeOfDecode : Prop :=
  ∀ (w : Half) (i : Instr), decodeWord w = .ok i → encode i = w

/-- The decoder accepts exactly the words that match a row of R65's opcode map, gives the row's instruction, and no word
matches two rows (R64, R65, R66). That patterns are taken literally is the spec's decision D9 (log 9). -/
def Obligations.DecodeFollowsOpcodeMap : Prop :=
  opRows.length = 35 ∧
  (∀ w : Half, (∃ i, decodeWord w = .ok i) ↔ ∃ r ∈ opRows, r.accepts w = true) ∧
  (∀ w : Half, ∀ r ∈ opRows, ∀ r' ∈ opRows, r.accepts w = true → r'.accepts w = true → r = r') ∧
  (∀ (w : Half) (i : Instr), decodeWord w = .ok i → i.row ∈ opRows ∧ i.row.accepts w = true)

/-! ## EXECUTE and the step -/

/-- Where the word at `PC` decodes to `i`, a step whose command is EXECUTE is `exec i` with `PC` advanced by 2 and the
random input set: the driver's byte where it names one, else none (R173, R178; logs 4 and 5). -/
def Obligations.StepRunsTheDecodedInstruction : Prop :=
  ∀ (s : State) (i : Instr), FetchesInstr s i →
    (s.pending = [] → step s = exec i { s with pc := s.pc + 2, rnd := none }) ∧
    (∀ (b : Byte) (rest : List Command), s.pending = .execute b :: rest →
      step s = exec i { s with pc := s.pc + 2, rnd := some b, pending := rest })

/-- EXECUTE: a fetch above address 4094 fails with `PC` unchanged; else `PC` is advanced by 2 before decoding, a word
that matches no pattern is UnknownOpcode after the advance, and any other runs its instruction there (R173). -/
def Obligations.ExecuteFetchesThenDecodes : Prop :=
  ∀ (s : State) (b : Byte),
    (4095 ≤ s.pc.toNat → command (.execute b) s = .fault (.memoryOutOfBounds s)) ∧
    (s.pc.toNat ≤ 4094 → ∃ hi lo : Byte,
      s.readMem s.pc.toNat = some hi ∧ s.readMem (s.pc.toNat + 1) = some lo ∧
      (∀ i, decodeWord (BitVec.ofNat 16 (256 * hi.toNat + lo.toNat)) = .ok i →
        command (.execute b) s = exec i { s with pc := s.pc + 2, rnd := some b }) ∧
      ((∀ i, decodeWord (BitVec.ofNat 16 (256 * hi.toNat + lo.toNat)) ≠ .ok i) →
        command (.execute b) s = .fault (.unknownOpcode { s with pc := s.pc + 2, rnd := some b })))

/-- UnknownOpcode: every word that matches no row of R65 ends EXECUTE with that error, `PC` advanced by 2 past the bad
word and nothing else changed (R191). -/
def Obligations.UnmatchedWordIsUnknownOpcode : Prop :=
  ∀ (s : State) (b hi lo : Byte),
    s.readMem s.pc.toNat = some hi → s.readMem (s.pc.toNat + 1) = some lo →
    (∀ r ∈ opRows, r.accepts (BitVec.ofNat 16 (256 * hi.toNat + lo.toNat)) = false) →
    ∃ t, command (.execute b) s = .fault (.unknownOpcode t) ∧ t.pc = s.pc + 2 ∧ t.pending = s.pending ∧
      SameExcept [.pc, .inputs] s t

/-! ## Invariants and rules of the whole machine -/

/-- The state after reset meets the invariant (R16, R17, R26). -/
def Obligations.ResetMeetsTheInvariant : Prop := State.reset.Inv

/-- Every step keeps the invariant, whatever command the driver issues and whether it succeeds or ends with an error:
`PC` in 0 to 0x10FE, every used stack slot at most 4096, memory in its canonical form (R16, R17, log 20). The state
after an error is the spec's decision D4 (log 3). -/
def Obligations.StepKeepsTheInvariant : Prop :=
  ∀ s : State, s.Inv → (∀ t, step s = .next t → t.Inv) ∧ (∀ f, step s = .fault f → f.after.Inv)

/-- Two memories in canonical form that read alike everywhere in the address space are the same data (log 20). -/
def Obligations.CanonicalMemoriesThatReadAlikeAreEqual : Prop :=
  ∀ m m' : Memory, m.wf = true → m'.wf = true → (∀ a, a < 4096 → m.read a = m'.read a) → m = m'

/-- No instruction and no step is refused: every command finishes with ok or one of the six errors (R230, R190). -/
def Obligations.NothingIsRefused : Prop :=
  (∀ (i : Instr) (s : State) (r : Refusal), exec i s ≠ .refused r) ∧
  (∀ (s : State) (r : Refusal), step s ≠ .refused r)

/-- R28's table, its instruction rows, over all instructions: what an instruction does not list it does not write,
whether it ends well or with an error (then: in the state it leaves, decision D4, log 3). Of the registers only the
listed ones; of memory only the listed bytes from `I` upward; of the stack only the slot `SP` numbers, by CALL; of the
framebuffer, by DRW, only cells under set bits of the sprite rows that lie in memory. -/
def Obligations.InstructionsWriteOnlyWhatTheyList : Prop :=
  ∀ (i : Instr) (s t : State),
    (exec i s = .next t ∨ ∃ f, exec i s = .fault f ∧ t = f.after) →
    SameExcept (partsWritten i s) s t ∧ (∀ r, regsWritten i r = false → t.getV r = s.getV r) ∧
    (∀ a, (∀ k, k < bytesWritten i → a ≠ s.effAddr k) → t.readMem a = s.readMem a) ∧
    (∀ nnn, i = .call nnn → ∀ k : Fin 16, k.val ≠ s.sp.val → t.stack[k.val] = s.stack[k.val]) ∧
    (∀ x y n, i = .drw x y n → ∀ k : Fin 2048,
      ¬ SpriteCovers s (s.getV x) (s.getV y) (min n.toNat (4096 - s.i.toNat)) k → t.fb[k.val] = s.fb[k.val])

/-- Each instruction raises only the errors R190's table lists for it, so no instruction meets two kinds (R199). -/
def Obligations.InstructionsRaiseOnlyTheirErrors : Prop :=
  ∀ (i : Instr) (s : State) (f : Fault), exec i s = .fault f → f.error ∈ errorsRaised i

/-- A flag write stores exactly 0 or 1 in VF, and no other instruction writes VF unless it names VF as a destination
(R12). Which bit 8XY6 stores is decision D2 (log 6); the statement does not depend on it. -/
def Obligations.FlagIsZeroOrOneAndWrittenByFlagInstructionsOnly : Prop :=
  ∀ (i : Instr) (s t : State), exec i s = .next t →
    ((∃ x y, i = .addReg x y ∨ i = .subReg x y ∨ i = .shr x y ∨ i = .subnReg x y ∨ i = .shl x y) ∨
        (∃ x y n, i = .drw x y n) → t.getV 15 = 0 ∨ t.getV 15 = 1) ∧
    (regsWritten i 15 = false → t.getV 15 = s.getV 15)

/-- No EXECUTE changes DT or ST except through FX15 and FX18 (R156). -/
def Obligations.ExecuteNeverCountsTheTimers : Prop :=
  ∀ (s t : State) (b : Byte),
    (command (.execute b) s = .next t ∨ ∃ f, command (.execute b) s = .fault f ∧ t = f.after) →
    ((∀ x, ¬ FetchesInstr s (.ldDtVx x)) → t.dt = s.dt) ∧ ((∀ x, ¬ FetchesInstr s (.ldStVx x)) → t.st = s.st)

/-! ## Control flow -/

/-- NOP (R80): the word 0x0000, and it changes nothing (the fetch has advanced `PC`). Every other word of first nibble 0
except 0x00E0 and 0x00EE is an unknown opcode. -/
def Obligations.NopChangesNothing : Prop :=
  Decodes 0x0000 .nop ∧ (∀ s : State, exec .nop s = .next s) ∧
    ∀ n, n < 0x1000 → n ≠ 0 → n ≠ 0xE0 → n ≠ 0xEE → decodeWord (word n) = .error (.unknownOpcode (word n))

/-- RET (R81, R193): pops the newest slot into `PC`; on an empty stack it is StackUnderflow with nothing changed. The
popped slot keeps its value, the spec's decision D17 (log 14); the state after the error is D4 (log 3). -/
def Obligations.RetPopsTheNewestSlot : Prop :=
  Decodes 0x00EE .ret ∧ ∀ s : State,
    (∀ k : Fin 16, s.sp.val = k.val + 1 →
      ∃ t, exec .ret s = .next t ∧ t.pc = s.stack[k.val] ∧ t.sp.val = k.val ∧ SameExcept [.pc, .sp] s t) ∧
    (s.sp.val = 0 → exec .ret s = .fault (.stackUnderflow s))

/-- JP nnn (R82): `PC` is the 12-bit address, nothing else changes, and the target is not checked: a jump to 0xFFF
succeeds and the next EXECUTE fails in its fetch. A jump to its own address takes `PC` back to where it was before the
fetch. -/
def Obligations.JumpSetsPc : Prop :=
  ∀ (nnn : BitVec 12) (s : State), Decodes (0x1000 + nnn.toNat) (.jp nnn) ∧
    ∃ t, exec (.jp nnn) s = .next t ∧ t.pc.toNat = nnn.toNat ∧ SameExcept [.pc] s t ∧
      (nnn.toNat = 0xFFF → ∀ b, command (.execute b) t = .fault (.memoryOutOfBounds t)) ∧
      (s.pc.toNat = nnn.toNat + 2 → t.pc = s.pc - 2)

/-- A jump to its own address is a stable loop: EXECUTE leaves the whole state of the core unchanged (R82, R182). That
it is the end of a run is only a suggestion of the spec, D18 (log 16). -/
def Obligations.SelfJumpIsStable : Prop :=
  ∀ s : State, s.atSelfJump → s.pending = [] → ∃ t, step s = .next t ∧ SameExcept [.inputs] s t ∧ t.atSelfJump ∧
    t.pending = []

/-- CALL nnn (R83): pushes the address of the following instruction and jumps; the sixteenth nested call succeeds, and
with 16 slots used it is StackOverflow with nothing changed. -/
def Obligations.CallPushesAndJumps : Prop :=
  ∀ (nnn : BitVec 12) (s : State), Decodes (0x2000 + nnn.toNat) (.call nnn) ∧
    (∀ k : Fin 16, s.sp.val = k.val →
      ∃ t, exec (.call nnn) s = .next t ∧ t.pc.toNat = nnn.toNat ∧ t.stack[k.val] = s.pc ∧ t.sp.val = k.val + 1 ∧
        (∀ j : Fin 16, j ≠ k → t.stack[j.val] = s.stack[j.val]) ∧ SameExcept [.pc, .sp, .stack] s t) ∧
    (s.sp.val = 16 → exec (.call nnn) s = .fault (.stackOverflow s))

/-- A call followed at once by a return comes back to the instruction after the call, with the stack pointer as it was
before: two EXECUTEs, wherever the two instructions stand (the source's property S9; R81, R83). -/
def Obligations.CallThenRetComesBack : Prop :=
  ∀ (nnn : BitVec 12) (s : State), s.pending = [] → s.sp.val < 16 → FetchesInstr s (.call nnn) →
    (∃ hi lo, s.readMem nnn.toNat = some hi ∧ s.readMem (nnn.toNat + 1) = some lo ∧ hi = 0x00 ∧ lo = 0xEE) →
    ∃ t u, step s = .next t ∧ step t = .next u ∧ t.pc.toNat = nnn.toNat ∧ u.pc = s.pc + 2 ∧ u.sp = s.sp ∧
      SameExcept [.pc, .stack, .inputs] s u

/-- The four conditional skips (R84, R85, R86, R87): a further 2 on `PC` exactly when the condition holds. The two that
compare registers are one word each: another last nibble is an unknown opcode. -/
def Obligations.SkipsFollowTheirConditions : Prop :=
  ∀ (x y : Reg) (nn : Byte) (s : State),
    Decodes (0x3000 + 256 * x.val + nn.toNat) (.seImm x nn) ∧ Decodes (0x4000 + 256 * x.val + nn.toNat) (.sneImm x nn) ∧
    Decodes (0x5000 + 256 * x.val + 16 * y.val) (.seReg x y) ∧
    Decodes (0x9000 + 256 * x.val + 16 * y.val) (.sneReg x y) ∧
    (∀ n, 1 ≤ n → n ≤ 15 → ∀ i, decodeWord (word (0x5000 + 256 * x.val + 16 * y.val + n)) ≠ .ok i ∧
      decodeWord (word (0x9000 + 256 * x.val + 16 * y.val + n)) ≠ .ok i) ∧
    (∃ t, exec (.seImm x nn) s = .next t ∧ t.pc = (if s.getV x = nn then s.pc + 2 else s.pc) ∧ SameExcept [.pc] s t) ∧
    (∃ t, exec (.sneImm x nn) s = .next t ∧ t.pc = (if s.getV x = nn then s.pc else s.pc + 2) ∧ SameExcept [.pc] s t) ∧
    (∃ t, exec (.seReg x y) s = .next t ∧ t.pc = (if s.getV x = s.getV y then s.pc + 2 else s.pc) ∧
      SameExcept [.pc] s t) ∧
    (∃ t, exec (.sneReg x y) s = .next t ∧ t.pc = (if s.getV x = s.getV y then s.pc else s.pc + 2) ∧
      SameExcept [.pc] s t)

/-- JP V0, nnn (R88): the exact sum of V0 and the address, at most 0x10FE, not reduced to 12 bits; where it passes 4094
the next EXECUTE fails in its fetch. -/
def Obligations.JumpV0AddsWithoutMask : Prop :=
  ∀ (nnn : BitVec 12) (s : State), Decodes (0xB000 + nnn.toNat) (.jpV0 nnn) ∧
    ∃ t, exec (.jpV0 nnn) s = .next t ∧ t.pc.toNat = (s.getV 0).toNat + nnn.toNat ∧ t.pc.toNat ≤ 0x10FE ∧
      SameExcept [.pc] s t ∧
      (4095 ≤ (s.getV 0).toNat + nnn.toNat → ∀ b, command (.execute b) t = .fault (.memoryOutOfBounds t))

/-! ## Registers and arithmetic -/

/-- LD Vx, nn and LD Vx, Vy (R100, R102): the value is moved, VF changes only as the destination. -/
def Obligations.LoadsMoveTheValue : Prop :=
  ∀ (x y : Reg) (nn : Byte) (s : State),
    Decodes (0x6000 + 256 * x.val + nn.toNat) (.ldImm x nn) ∧ Decodes (0x8000 + 256 * x.val + 16 * y.val) (.ldReg x y) ∧
    (∃ t, exec (.ldImm x nn) s = .next t ∧ t.getV x = nn ∧ SameRegsExcept [x] s t ∧ SameExcept [.regs] s t) ∧
    (∃ t, exec (.ldReg x y) s = .next t ∧ t.getV x = s.getV y ∧ SameRegsExcept [x] s t ∧ SameExcept [.regs] s t)

/-- ADD Vx, nn (R101): modulo 256, no flag; with `X` = 15 it adds to VF as an ordinary register. -/
def Obligations.AddImmediateWrapsWithoutFlag : Prop :=
  ∀ (x : Reg) (nn : Byte) (s : State), Decodes (0x7000 + 256 * x.val + nn.toNat) (.addImm x nn) ∧
    ∃ t, exec (.addImm x nn) s = .next t ∧ (t.getV x).toNat = ((s.getV x).toNat + nn.toNat) % 256 ∧
      SameRegsExcept [x] s t ∧ SameExcept [.regs] s t

/-- OR, AND, XOR (R103, R104, R105): bit by bit, and VF is not written. -/
def Obligations.LogicIsBitwiseWithoutFlag : Prop :=
  ∀ (x y : Reg) (s : State),
    Decodes (0x8001 + 256 * x.val + 16 * y.val) (.orReg x y) ∧
    Decodes (0x8002 + 256 * x.val + 16 * y.val) (.andReg x y) ∧
    Decodes (0x8003 + 256 * x.val + 16 * y.val) (.xorReg x y) ∧
    (∃ t, exec (.orReg x y) s = .next t ∧
      (∀ j, (t.getV x).getLsbD j = ((s.getV x).getLsbD j || (s.getV y).getLsbD j)) ∧
      SameRegsExcept [x] s t ∧ SameExcept [.regs] s t) ∧
    (∃ t, exec (.andReg x y) s = .next t ∧
      (∀ j, (t.getV x).getLsbD j = ((s.getV x).getLsbD j && (s.getV y).getLsbD j)) ∧
      SameRegsExcept [x] s t ∧ SameExcept [.regs] s t) ∧
    (∃ t, exec (.xorReg x y) s = .next t ∧
      (∀ j, (t.getV x).getLsbD j = ((s.getV x).getLsbD j != (s.getV y).getLsbD j)) ∧
      SameRegsExcept [x] s t ∧ SameExcept [.regs] s t)

/-- ADD Vx, Vy (R106): the sum modulo 256, VF the carry, written last, so with `X` = 15 VF is the carry. -/
def Obligations.AddSetsCarry : Prop :=
  ∀ (x y : Reg) (s : State), Decodes (0x8004 + 256 * x.val + 16 * y.val) (.addReg x y) ∧
    ∃ t, exec (.addReg x y) s = .next t ∧
      (x ≠ 15 → (t.getV x).toNat = ((s.getV x).toNat + (s.getV y).toNat) % 256) ∧
      t.getV 15 = (if (s.getV x).toNat + (s.getV y).toNat > 255 then 1 else 0) ∧
      SameRegsExcept [x, 15] s t ∧ SameExcept [.regs] s t

/-- SUB Vx, Vy and SUBN Vx, Vy (R107, R109): the difference modulo 256, VF = 1 exactly when the minuend is at least the
subtrahend, written last. -/
def Obligations.SubtractionsSetNotBorrow : Prop :=
  ∀ (x y : Reg) (s : State),
    Decodes (0x8005 + 256 * x.val + 16 * y.val) (.subReg x y) ∧
    Decodes (0x8007 + 256 * x.val + 16 * y.val) (.subnReg x y) ∧
    (∃ t, exec (.subReg x y) s = .next t ∧
      (x ≠ 15 → (t.getV x).toNat = ((s.getV x).toNat + 256 - (s.getV y).toNat) % 256) ∧
      t.getV 15 = (if (s.getV x).toNat ≥ (s.getV y).toNat then 1 else 0) ∧
      SameRegsExcept [x, 15] s t ∧ SameExcept [.regs] s t) ∧
    (∃ t, exec (.subnReg x y) s = .next t ∧
      (x ≠ 15 → (t.getV x).toNat = ((s.getV y).toNat + 256 - (s.getV x).toNat) % 256) ∧
      t.getV 15 = (if (s.getV y).toNat ≥ (s.getV x).toNat then 1 else 0) ∧
      SameRegsExcept [x, 15] s t ∧ SameExcept [.regs] s t)

/-- SHR Vx and SHL Vx (R108, R110): VX shifted by 1, VF the bit shifted out, and VY plays no part (R67). That VF is the
dropped bit and not the whole old register is the spec's decision D2 (log 6); that the flag is written last, so that it
wins with `X` = 15, is its decision D3 (log 7). -/
def Obligations.ShiftsSetTheDroppedBit : Prop :=
  ∀ (x y : Reg) (s : State),
    Decodes (0x8006 + 256 * x.val + 16 * y.val) (.shr x y) ∧ Decodes (0x800E + 256 * x.val + 16 * y.val) (.shl x y) ∧
    (∃ t, exec (.shr x y) s = .next t ∧ (x ≠ 15 → (t.getV x).toNat = (s.getV x).toNat / 2) ∧
      (t.getV 15).toNat = (s.getV x).toNat % 2 ∧ SameRegsExcept [x, 15] s t ∧ SameExcept [.regs] s t) ∧
    (∃ t, exec (.shl x y) s = .next t ∧ (x ≠ 15 → (t.getV x).toNat = 2 * (s.getV x).toNat % 256) ∧
      (t.getV 15).toNat = (s.getV x).toNat / 128 ∧ SameRegsExcept [x, 15] s t ∧ SameExcept [.regs] s t)

/-- RND Vx, nn (R111): the random byte AND the mask, for every byte the driver supplies, and for a free byte where it
names none: then all that is known is that no bit outside the mask is set. Every RND counts the model's draw counter on
by 1, so that the next free byte is a fresh one. That `rnd` is a free input is the spec's decision D7; the free byte and
its counter are the model's choice (log 5). -/
def Obligations.RandomIsMasked : Prop :=
  ∀ (x : Reg) (nn : Byte) (s : State), Decodes (0xC000 + 256 * x.val + nn.toNat) (.rnd x nn) ∧
    ∃ t, exec (.rnd x nn) s = .next t ∧ t.getV x = s.randomByte &&& nn ∧ t.draws = s.draws + 1 ∧
      (∀ b, s.rnd = some b → t.getV x = b &&& nn) ∧
      (∀ j, nn.getLsbD j = false → (t.getV x).getLsbD j = false) ∧
      SameRegsExcept [x] s t ∧ SameExcept [.regs, .draws] s t

/-! ## Index register and memory -/

/-- LD I, nnn and LD F, Vx (R120, R122): the 12-bit value with bits 15:12 zero, and five times the whole byte. -/
def Obligations.IndexLoads : Prop :=
  ∀ (nnn : BitVec 12) (x : Reg) (s : State),
    Decodes (0xA000 + nnn.toNat) (.ldI nnn) ∧ Decodes (0xF029 + 256 * x.val) (.ldF x) ∧
    (∃ t, exec (.ldI nnn) s = .next t ∧ t.i.toNat = nnn.toNat ∧ SameExcept [.index] s t) ∧
    (∃ t, exec (.ldF x) s = .next t ∧ t.i.toNat = 5 * (s.getV x).toNat ∧ SameExcept [.index] s t)

/-- ADD I, Vx (R121): modulo 65536, and VF is not written. That it wraps at 16 bits is the spec's decision D10
(log 8). -/
def Obligations.AddToIndexWrapsAt16Bits : Prop :=
  ∀ (x : Reg) (s : State), Decodes (0xF01E + 256 * x.val) (.addI x) ∧
    ∃ t, exec (.addI x) s = .next t ∧ t.i.toNat = (s.i.toNat + (s.getV x).toNat) % 65536 ∧ SameExcept [.index] s t

/-- LD B, Vx (R123): three decimal digits of VX at `I`, `I` + 1, `I` + 2, and every other byte as before. Past address
4095 it is MemoryOutOfBounds with the digits before it stored (R194; the spec's decision D4, log 3). -/
def Obligations.BcdStoresThreeDigits : Prop :=
  ∀ (x : Reg) (s : State), Decodes (0xF033 + 256 * x.val) (.ldB x) ∧
    ∃ t, (s.i.toNat + 2 ≤ 4095 → exec (.ldB x) s = .next t) ∧
      (4096 ≤ s.i.toNat + 2 → exec (.ldB x) s = .fault (.memoryOutOfBounds t)) ∧
      (∃ h d o : Byte, h.toNat ≤ 9 ∧ d.toNat ≤ 9 ∧ o.toNat ≤ 9 ∧
        (s.getV x).toNat = 100 * h.toNat + 10 * d.toNat + o.toNat ∧
        (s.i.toNat ≤ 4095 → t.readMem s.i.toNat = some h) ∧
        (s.i.toNat + 1 ≤ 4095 → t.readMem (s.i.toNat + 1) = some d) ∧
        (s.i.toNat + 2 ≤ 4095 → t.readMem (s.i.toNat + 2) = some o)) ∧
      (∀ a, a < s.i.toNat ∨ s.i.toNat + 2 < a → t.readMem a = s.readMem a) ∧ SameExcept [.mem] s t

/-- LD [I], Vx (R124): register `r` to address `I + r` for `r` = 0 to `X`, every other byte as before, `I` unchanged.
Past address 4095 it is MemoryOutOfBounds with the earlier bytes stored (R194; the spec's decision D4, log 3). -/
def Obligations.StoreRegistersWritesEachByte : Prop :=
  ∀ (x : Reg) (s : State), Decodes (0xF055 + 256 * x.val) (.storeRegs x) ∧
    ∃ t, (s.i.toNat + x.val ≤ 4095 → exec (.storeRegs x) s = .next t) ∧
      (4096 ≤ s.i.toNat + x.val → exec (.storeRegs x) s = .fault (.memoryOutOfBounds t)) ∧
      (∀ r : Reg, r ≤ x → s.i.toNat + r.val ≤ 4095 → t.readMem (s.i.toNat + r.val) = some (s.getV r)) ∧
      (∀ a, a < s.i.toNat ∨ s.i.toNat + x.val < a → t.readMem a = s.readMem a) ∧ SameExcept [.mem] s t

/-- LD Vx, [I] (R125): address `I + r` to register `r` for `r` = 0 to `X`, the other registers, memory and `I`
unchanged. Past address 4095 it is MemoryOutOfBounds (conflict C4, log 11) with the earlier registers loaded (the spec's
decision D4, log 3). -/
def Obligations.LoadRegistersReadsEachByte : Prop :=
  ∀ (x : Reg) (s : State), Decodes (0xF065 + 256 * x.val) (.loadRegs x) ∧
    ∃ t, (s.i.toNat + x.val ≤ 4095 → exec (.loadRegs x) s = .next t) ∧
      (4096 ≤ s.i.toNat + x.val → exec (.loadRegs x) s = .fault (.memoryOutOfBounds t)) ∧
      (∀ r : Reg, r ≤ x → s.i.toNat + r.val ≤ 4095 → some (t.getV r) = s.readMem (s.i.toNat + r.val)) ∧
      (∀ r : Reg, r ≤ x → 4096 ≤ s.i.toNat + r.val → t.getV r = s.getV r) ∧
      (∀ r : Reg, x < r → t.getV r = s.getV r) ∧ SameExcept [.regs] s t

/-- What FX55 stored, FX65 brings back, whatever happened in between to the registers, as long as `I` and memory are as
FX55 left them (R124, R125, R126). -/
def Obligations.StoreThenLoadRestoresTheRegisters : Prop :=
  ∀ (x : Reg) (s t u : State), exec (.storeRegs x) s = .next t → u.i = t.i → u.mem = t.mem →
    ∃ w, exec (.loadRegs x) u = .next w ∧ (∀ r, r ≤ x → w.getV r = s.getV r) ∧ (∀ r, x < r → w.getV r = u.getV r)

/-- A store by FX33 or FX55, and a LOAD, is seen by the very next fetch: where a stored byte stands at `PC` or the
address after it, that byte is fetched there (R53, the spec's decision D13, log 10). -/
def Obligations.StoresAreSeenByTheNextFetch : Prop :=
  ∀ s t : State, s.pc.toNat ≤ 4094 →
    (∀ x, exec (.ldB x) s = .next t →
      FetchSees t (fun a c => ∃ k, k < 3 ∧ a = s.i.toNat + k ∧ c = decimalDigit (s.getV x) k)) ∧
    (∀ x, exec (.storeRegs x) s = .next t →
      FetchSees t (fun a c => ∃ r : Reg, r ≤ x ∧ a = s.i.toNat + r.val ∧ c = s.getV r)) ∧
    (∀ bytes, command (.load bytes) s = .next t →
      FetchSees t (fun a c => ∃ j, a = 0x200 + j ∧ bytes[j]? = some c))

/-! ## Display -/

/-- CLS (R140): every cell false, VF not written, nothing else touched. -/
def Obligations.ClearScreenClearsEveryCell : Prop :=
  Decodes 0x00E0 .cls ∧ ∀ s : State,
    ∃ t, exec .cls s = .next t ∧ (∀ k : Fin 2048, t.fb[k.val] = false) ∧ SameExcept [.fb] s t

/-- DRW Vx, Vy, n (R141) where every sprite byte is in bounds, which is always so with `n` = 0: exactly the cells under
a 1 bit of the sprite are toggled, both axes wrapping; VF is 1 exactly when one of them was lit; `I`, memory and the
other registers are unchanged. That `n` is the number of rows is the spec's decision D26 (log 17). -/
def Obligations.DrawTogglesTheSpriteCells : Prop :=
  ∀ (x y : Reg) (n : BitVec 4) (s : State),
    Decodes (0xD000 + 256 * x.val + 16 * y.val + n.toNat) (.drw x y n) ∧
    (n.toNat = 0 ∨ s.i.toNat + n.toNat ≤ 4096 →
      ∃ t, exec (.drw x y n) s = .next t ∧
        (∀ k : Fin 2048, t.fb[k.val] ≠ s.fb[k.val] ↔ SpriteCovers s (s.getV x) (s.getV y) n.toNat k) ∧
        (t.getV 15 = 0 ∨ t.getV 15 = 1) ∧
        (t.getV 15 = 1 ↔ ∃ k : Fin 2048, SpriteCovers s (s.getV x) (s.getV y) n.toNat k ∧ s.fb[k.val] = true) ∧
        SameRegsExcept [15] s t ∧ SameExcept [.fb, .regs] s t)

/-- DRW whose sprite runs past address 4095 is MemoryOutOfBounds; the rows before the failing read stay drawn and VF is
not written (R194; the spec's decision D4, log 3). -/
def Obligations.DrawPastMemoryKeepsTheEarlierRows : Prop :=
  ∀ (x y : Reg) (n : BitVec 4) (s : State), n.toNat ≠ 0 → 4096 < s.i.toNat + n.toNat →
    ∃ t, exec (.drw x y n) s = .fault (.memoryOutOfBounds t) ∧
      (∀ k : Fin 2048, t.fb[k.val] ≠ s.fb[k.val] ↔ SpriteCovers s (s.getV x) (s.getV y) (4096 - s.i.toNat) k) ∧
      SameExcept [.fb] s t

/-- Drawing the same sprite twice restores the framebuffer exactly, and the second draw reports a collision exactly when
some cell of the sprite was unlit at the start; VF is not among the coordinate registers (R142, which the spec derives
from R141; `n` is the number of rows, decision D26, log 17). -/
def Obligations.DrawTwiceRestoresTheScreen : Prop :=
  ∀ (x y : Reg) (n : BitVec 4) (s : State), x ≠ 15 → y ≠ 15 → (n.toNat = 0 ∨ s.i.toNat + n.toNat ≤ 4096) →
    ∃ t u, exec (.drw x y n) s = .next t ∧ exec (.drw x y n) t = .next u ∧
      (∀ k : Fin 2048, u.fb[k.val] = s.fb[k.val]) ∧
      (u.getV 15 = 1 ↔ ∃ k : Fin 2048, SpriteCovers s (s.getV x) (s.getV y) n.toNat k ∧ s.fb[k.val] = false) ∧
      SameRegsExcept [15] s u ∧ SameExcept [.regs] s u

/-! ## Keypad and timers -/

/-- SKP and SKNP (R150, R151): the latch of the key VX numbers decides the skip; a VX above 15 is InvalidKeyIndex, not
masked, with no skip. -/
def Obligations.KeySkipsReadTheLatch : Prop :=
  ∀ (x : Reg) (s : State),
    Decodes (0xE09E + 256 * x.val) (.skp x) ∧ Decodes (0xE0A1 + 256 * x.val) (.sknp x) ∧
    (∀ k : Key, (s.getV x).toNat = k.val →
      (∃ t, exec (.skp x) s = .next t ∧ t.pc = (if s.keys[k.val] = true then s.pc + 2 else s.pc) ∧
        SameExcept [.pc] s t) ∧
      (∃ t, exec (.sknp x) s = .next t ∧ t.pc = (if s.keys[k.val] = true then s.pc else s.pc + 2) ∧
        SameExcept [.pc] s t)) ∧
    (16 ≤ (s.getV x).toNat →
      exec (.skp x) s = .fault (.invalidKeyIndex s) ∧ exec (.sknp x) s = .fault (.invalidKeyIndex s))

/-- LD Vx, DT and LD DT, Vx (R152, R154): the whole byte is moved and nothing else changes. -/
def Obligations.DelayTimerMoves : Prop :=
  ∀ (x : Reg) (s : State),
    Decodes (0xF007 + 256 * x.val) (.ldVxDt x) ∧ Decodes (0xF015 + 256 * x.val) (.ldDtVx x) ∧
    (∃ t, exec (.ldVxDt x) s = .next t ∧ t.getV x = s.dt ∧ SameRegsExcept [x] s t ∧ SameExcept [.regs] s t) ∧
    (∃ t, exec (.ldDtVx x) s = .next t ∧ t.dt = s.getV x ∧ SameExcept [.delay] s t)

/-- LD ST, Vx (R155): ST is VX; the EXECUTE that runs it answers ok and gives no tone; the next TICK signals the tone
exactly when VX is 1, so that writing 0 cancels a pending tone. That the tone is a result of the command is the spec's
decision D19 (log 15). -/
def Obligations.SoundTimerIsSet : Prop :=
  ∀ (x : Reg) (s : State), Decodes (0xF018 + 256 * x.val) (.ldStVx x) ∧
    (∃ t, exec (.ldStVx x) s = .next t ∧ t.st = s.getV x ∧ SameExcept [.sound] s t ∧
      response .tick t = .tone (decide ((s.getV x).toNat = 1))) ∧
    ∀ b, FetchesInstr s (.ldStVx x) → response (.execute b) s = .ok

/-- LD Vx, K (R153): with a key pressed VX is the lowest pressed key's number; with none pressed `PC` is taken back by 2
and nothing else changes. -/
def Obligations.KeyWaitTakesTheLowestKey : Prop :=
  ∀ (x : Reg) (s : State), Decodes (0xF00A + 256 * x.val) (.ldVxK x) ∧
    (∀ k : Key, s.keys[k.val] = true → (∀ j : Key, j < k → s.keys[j.val] = false) →
      ∃ t, exec (.ldVxK x) s = .next t ∧ (t.getV x).toNat = k.val ∧ SameRegsExcept [x] s t ∧ SameExcept [.regs] s t) ∧
    ((∀ k : Key, s.keys[k.val] = false) →
      ∃ t, exec (.ldVxK x) s = .next t ∧ t.pc = s.pc - 2 ∧ SameExcept [.pc] s t)

/-- With no key pressed, any number of EXECUTEs of LD Vx, K is ok and leaves the whole state of the core as it was
(R153, R203). -/
def Obligations.KeyWaitRepeatsUnchanged : Prop :=
  ∀ (n : Nat) (x : Reg) (s : State), s.pending = [] → FetchesInstr s (.ldVxK x) → (∀ k : Key, s.keys[k.val] = false) →
    ∃ t, Host.Core.run core n s = .next t ∧ SameExcept [.inputs] s t ∧ t.pending = []

/-! ## Commands of the driver -/

/-- RESET (R171, R26): from any state every piece of state has its reset value, memory the font table below 80 and 0
above, the result is ok and no tone is signalled; and the state after power-on is the same. The font's own bytes are a
parameter, given here by the model's default table (log 1). -/
def Obligations.ResetRestoresEveryPiece : Prop :=
  ∀ s : State, response .reset s = .ok ∧ ∃ t, command .reset s = .next t ∧
    ∀ u, u = t ∨ u = State.reset →
      (∀ r, u.getV r = 0) ∧ u.i = 0 ∧ u.pc = 0x200 ∧ (∀ k : Fin 16, u.stack[k.val] = 0) ∧ u.sp.val = 0 ∧ u.dt = 0 ∧
      u.st = 0 ∧ (∀ k : Key, u.keys[k.val] = false) ∧ (∀ k : Fin 2048, u.fb[k.val] = false) ∧
      (∀ a, a < 80 → u.readMem a = some (fontByte a)) ∧ (∀ a, 80 ≤ a → a < 4096 → u.readMem a = some 0)

/-- LOAD (R172): byte `j` of the image to `0x200 + j`, nothing else touched; an image of more than 3584 bytes is
OversizedLoad with its first 3584 bytes stored, the spec's decision D16 (log 13). -/
def Obligations.LoadCopiesTheImage : Prop :=
  ∀ (bytes : List Byte) (s : State),
    ∃ t, (bytes.length ≤ 3584 → command (.load bytes) s = .next t ∧ response (.load bytes) s = .ok) ∧
      (3584 < bytes.length → command (.load bytes) s = .fault (.oversizedLoad t)) ∧
      (∀ (j : Nat) (b : Byte), bytes[j]? = some b → j < 3584 → t.readMem (0x200 + j) = some b) ∧
      (∀ a, a < 0x200 ∨ 0x200 + bytes.length ≤ a → t.readMem a = s.readMem a) ∧ SameExcept [.mem] s t

/-- TICK (R174): each timer down by 1 unless it is 0, and the tone exactly when this TICK took ST from 1 to 0. That the
tone is a result of the command, and not latched, is the spec's decision D19 (log 15). -/
def Obligations.TickCountsBothTimersDown : Prop :=
  ∀ s : State, ∃ t, command .tick s = .next t ∧ t.dt.toNat = s.dt.toNat - 1 ∧ t.st.toNat = s.st.toNat - 1 ∧
    response .tick s = .tone (decide (s.st.toNat = 1 ∧ t.st.toNat = 0)) ∧ SameExcept [.delay, .sound] s t

/-- ST left alone gives exactly one tone pulse, on the n-th TICK where ST was n at the start, and none where it was 0
(R174; the tone as a result is decision D19, log 15). -/
def Obligations.SoundTimerGivesOneTone : Prop :=
  ∀ (m : Nat) (s : State),
    (runCommands (List.replicate m .tick) s).1 =
      (List.range m).map (fun j => Response.tone (decide (j + 1 = s.st.toNat)))

/-- SETKEY (R175): one latch set, the others and everything else unchanged; an index above 15 is InvalidKeyIndex and no
latch changes. The 8-bit index is the spec's decision D15 (log 12). -/
def Obligations.SetKeySetsOneLatch : Prop :=
  ∀ (index : Byte) (pressed : Bool) (s : State),
    (∀ k : Key, index.toNat = k.val →
      response (.setKey index pressed) s = .ok ∧
      ∃ t, command (.setKey index pressed) s = .next t ∧ t.keys[k.val] = pressed ∧
        (∀ j : Key, j ≠ k → t.keys[j.val] = s.keys[j.val]) ∧ SameExcept [.keys] s t) ∧
    (16 ≤ index.toNat → command (.setKey index pressed) s = .fault (.invalidKeyIndex s) ∧
      response (.setKey index pressed) s = .error .invalidKeyIndex)

/-- READFB (R176): the 2048 booleans, and nothing changes. That they come unpacked is the spec's decision D22
(log 18). -/
def Obligations.ReadFramebufferIsAView : Prop :=
  ∀ s : State, command .readFb s = .next s ∧
    ∃ view : FrameBuffer, response .readFb s = .view view ∧ ∀ k : Fin 2048, view[k.val] = s.fb[k.val]

/-- A step runs the driver's next command, and the driver receives an error exactly where the step ends with a fault of
that error (R177, R179; log 4). -/
def Obligations.StepRunsTheNextCommand : Prop :=
  ∀ (s : State) (c : Command) (rest : List Command), s.pending = c :: rest →
    step s = command c { s with pending := rest } ∧
    (∀ e, response c { s with pending := rest } = .error e ↔ ∃ f, step s = .fault f ∧ f.error = e)

/-- A fetch error does not move `PC`, so every further EXECUTE fails in the same way and the state stays (R202, derived
in the spec from its decision D4; log 3). -/
def Obligations.FetchErrorRepeats : Prop :=
  ∀ (bs : List Byte) (s : State), 4095 ≤ s.pc.toNat →
    runCommands (bs.map Command.execute) s = (bs.map (fun _ => Response.error .memoryOutOfBounds), s)

/-- The core stays usable after an error: the EXECUTE after an unknown opcode runs the instruction behind it (R197,
R202; vector V-HOST-16; the state after the error is decision D4, log 3). -/
def Obligations.ExecuteGoesOnAfterUnknownOpcode : Prop :=
  ∀ (s t : State) (b b' : Byte) (i : Instr), command (.execute b) s = .fault (.unknownOpcode t) → FetchesInstr t i →
    t.pc = s.pc + 2 ∧ stateAfter (.execute b) s = t ∧
      command (.execute b') (stateAfter (.execute b) s) = exec i { t with pc := t.pc + 2, rnd := some b' }

/-- With no program loaded, 1792 EXECUTEs run NOPs from 0x200 and leave `PC` = 4096, and the next one is
MemoryOutOfBounds in fetch (R222, C8). -/
def Obligations.EmptyMemoryRunsNopsToItsEnd : Prop :=
  Host.Core.run core 1792 State.reset = .next { State.reset with pc := 0x1000 } ∧
    Host.Core.run core 1793 State.reset = .fault (.memoryOutOfBounds { State.reset with pc := 0x1000 })

/-- What the driver receives of EXECUTE, for every instruction: ok where the instruction goes on, and its error where it
ends with one; never a tone or a view. Either way the core is left in the state the instruction leaves (R173, R177;
after an error the spec's decision D4, log 3). -/
def Obligations.ExecuteAnswersOkOrTheErrorRaised : Prop :=
  ∀ (s : State) (i : Instr) (b : Byte), FetchesInstr s i →
    (∀ t, exec i { s with pc := s.pc + 2, rnd := some b } = .next t →
      response (.execute b) s = .ok ∧ stateAfter (.execute b) s = t) ∧
    (∀ f, exec i { s with pc := s.pc + 2, rnd := some b } = .fault f →
      response (.execute b) s = .error f.error ∧ stateAfter (.execute b) s = f.after)
end

