-- ==== Sys2Proof/Laws/Decode.lean ====
section
/-! SUPPORT. Words written as numbers, and what decoding does to them (spec/30_encoding.md). -/

namespace Sys2Proof

/-- The fetched word as a number: high byte first (R45). -/
theorem wordOfBytes_eq_ofNat (hi lo : Byte) : wordOfBytes hi lo = BitVec.ofNat 16 (256 * hi.toNat + lo.toNat) := by
  apply BitVec.eq_of_toNat_eq
  have h1 := hi.isLt
  have h2 := lo.isLt
  rw [wordOfBytes, BitVec.toNat_append, BitVec.toNat_ofNat, Nat.shiftLeft_eq,
    ← Nat.shiftLeft_eq, ← Nat.shiftLeft_add_eq_or_of_lt h2, Nat.shiftLeft_eq]
  omega

/-- The two bytes of a word are the word (R45). -/
theorem wordOfBytes_highByte_lowByte (w : Half) : wordOfBytes (highByte w) (lowByte w) = w := by
  apply BitVec.eq_of_toNat_eq
  rw [wordOfBytes_eq_ofNat]
  have := w.isLt
  simp [highByte, lowByte]
  omega

/-! ## The fields of a word, as numbers (R61) -/

theorem nibble_toNat (w : Half) (lo : Nat) : (nibble w lo).toNat = w.toNat / 2 ^ lo % 16 := by
  simp [nibble, Nat.shiftRight_eq_div_pow]

theorem fieldRegX_val (w : Half) : (fieldRegX w).val = w.toNat / 256 % 16 := nibble_toNat w 8

theorem fieldRegY_val (w : Half) : (fieldRegY w).val = w.toNat / 16 % 16 := nibble_toNat w 4

theorem fieldImmN_toNat (w : Half) : (fieldImmN w).toNat = w.toNat % 16 := by
  rw [fieldImmN, nibble_toNat]; simp

theorem fieldImmNN_toNat (w : Half) : (fieldImmNN w).toNat = w.toNat % 256 := by simp [fieldImmNN]

theorem fieldImmNNN_toNat (w : Half) : (fieldImmNNN w).toNat = w.toNat % 4096 := by simp [fieldImmNNN]

@[simp] theorem regBits_toNat (x : Reg) : (regBits x).toNat = x.val := rfl

theorem append_toNat {m n : Nat} (a : BitVec m) (b : BitVec n) : (a ++ b).toNat = a.toNat * 2 ^ n + b.toNat := by
  rw [BitVec.toNat_append, ← Nat.shiftLeft_add_eq_or_of_lt b.isLt, Nat.shiftLeft_eq]

theorem wordNNN_toNat (op : BitVec 4) (nnn : BitVec 12) : (wordNNN op nnn).toNat = op.toNat * 4096 + nnn.toNat :=
  append_toNat op nnn

theorem wordXNN_toNat (op : BitVec 4) (x : Reg) (nn : Byte) :
    (wordXNN op x nn).toNat = op.toNat * 4096 + (x.val * 256 + nn.toNat) := by
  have h := append_toNat op (regBits x ++ nn)
  rw [append_toNat (regBits x) nn, regBits_toNat] at h
  exact h

theorem wordX_toNat (op : BitVec 4) (x : Reg) (minor : Byte) :
    (wordX op x minor).toNat = op.toNat * 4096 + (x.val * 256 + minor.toNat) := wordXNN_toNat op x minor

theorem wordXYN_toNat (op : BitVec 4) (x y : Reg) (n : BitVec 4) :
    (wordXYN op x y n).toNat = op.toNat * 4096 + (x.val * 256 + (y.val * 16 + n.toNat)) := by
  have h := append_toNat op (regBits x ++ (regBits y ++ n))
  rw [append_toNat (regBits x) (regBits y ++ n), append_toNat (regBits y) n, regBits_toNat, regBits_toNat] at h
  exact h

/-! ## The fields of the four word formats (R62) -/

@[simp] theorem nibble_wordNNN (op : BitVec 4) (nnn : BitVec 12) : nibble (wordNNN op nnn) 12 = op := by
  apply BitVec.eq_of_toNat_eq
  rw [nibble_toNat, wordNNN_toNat]
  omega

@[simp] theorem fieldImmNNN_wordNNN (op : BitVec 4) (nnn : BitVec 12) : fieldImmNNN (wordNNN op nnn) = nnn := by
  apply BitVec.eq_of_toNat_eq
  rw [fieldImmNNN_toNat, wordNNN_toNat]
  omega

@[simp] theorem nibble_wordXNN (op : BitVec 4) (x : Reg) (nn : Byte) : nibble (wordXNN op x nn) 12 = op := by
  apply BitVec.eq_of_toNat_eq
  rw [nibble_toNat, wordXNN_toNat]
  omega

@[simp] theorem fieldRegX_wordXNN (op : BitVec 4) (x : Reg) (nn : Byte) : fieldRegX (wordXNN op x nn) = x := by
  apply Fin.ext
  rw [fieldRegX_val, wordXNN_toNat]
  omega

@[simp] theorem fieldImmNN_wordXNN (op : BitVec 4) (x : Reg) (nn : Byte) : fieldImmNN (wordXNN op x nn) = nn := by
  apply BitVec.eq_of_toNat_eq
  rw [fieldImmNN_toNat, wordXNN_toNat]
  omega

@[simp] theorem nibble_wordX (op : BitVec 4) (x : Reg) (minor : Byte) : nibble (wordX op x minor) 12 = op := by
  apply BitVec.eq_of_toNat_eq
  rw [nibble_toNat, wordX_toNat]
  omega

@[simp] theorem fieldRegX_wordX (op : BitVec 4) (x : Reg) (minor : Byte) : fieldRegX (wordX op x minor) = x := by
  apply Fin.ext
  rw [fieldRegX_val, wordX_toNat]
  omega

@[simp] theorem fieldImmNN_wordX (op : BitVec 4) (x : Reg) (minor : Byte) : fieldImmNN (wordX op x minor) = minor := by
  apply BitVec.eq_of_toNat_eq
  rw [fieldImmNN_toNat, wordX_toNat]
  omega

@[simp] theorem nibble_wordXYN (op : BitVec 4) (x y : Reg) (n : BitVec 4) : nibble (wordXYN op x y n) 12 = op := by
  apply BitVec.eq_of_toNat_eq
  rw [nibble_toNat, wordXYN_toNat]
  omega

@[simp] theorem fieldRegX_wordXYN (op : BitVec 4) (x y : Reg) (n : BitVec 4) : fieldRegX (wordXYN op x y n) = x := by
  apply Fin.ext
  rw [fieldRegX_val, wordXYN_toNat]
  omega

@[simp] theorem fieldRegY_wordXYN (op : BitVec 4) (x y : Reg) (n : BitVec 4) : fieldRegY (wordXYN op x y n) = y := by
  apply Fin.ext
  rw [fieldRegY_val, wordXYN_toNat]
  omega

@[simp] theorem fieldImmN_wordXYN (op : BitVec 4) (x y : Reg) (n : BitVec 4) : fieldImmN (wordXYN op x y n) = n := by
  apply BitVec.eq_of_toNat_eq
  rw [fieldImmN_toNat, wordXYN_toNat]
  omega

/-- A word written as a number is the format's word. -/
theorem ofNat_eq_wordNNN (op : BitVec 4) (nnn : BitVec 12) :
    BitVec.ofNat 16 (op.toNat * 4096 + nnn.toNat) = wordNNN op nnn := by
  apply BitVec.eq_of_toNat_eq
  rw [wordNNN_toNat, BitVec.toNat_ofNat]
  omega

theorem ofNat_eq_wordXNN (op : BitVec 4) (x : Reg) (nn : Byte) :
    BitVec.ofNat 16 (op.toNat * 4096 + 256 * x.val + nn.toNat) = wordXNN op x nn := by
  apply BitVec.eq_of_toNat_eq
  rw [wordXNN_toNat, BitVec.toNat_ofNat]
  omega

theorem ofNat_eq_wordX (op : BitVec 4) (x : Reg) (minor : Byte) :
    BitVec.ofNat 16 (op.toNat * 4096 + minor.toNat + 256 * x.val) = wordX op x minor := by
  apply BitVec.eq_of_toNat_eq
  rw [wordX_toNat, BitVec.toNat_ofNat]
  omega

theorem ofNat_eq_wordXYN (op : BitVec 4) (x y : Reg) (n : BitVec 4) :
    BitVec.ofNat 16 (op.toNat * 4096 + n.toNat + 256 * x.val + 16 * y.val) = wordXYN op x y n := by
  apply BitVec.eq_of_toNat_eq
  rw [wordXYN_toNat, BitVec.toNat_ofNat]
  omega

/-- Decoding two bytes is decoding their word. -/
theorem decode_two (hi lo : Byte) (rest : List Byte) :
    decode (hi :: lo :: rest) = (decodeWord (wordOfBytes hi lo)).map (fun i => (i, rest)) := by
  simp only [decode]
  cases decodeWord (wordOfBytes hi lo) <;> rfl

/-- A decoding error of a word is UnknownOpcode, by name (R66). -/
theorem decodeWord_error {w : Half} {e : DecodeError} (h : decodeWord w = .error e) : e = .unknownOpcode w := by
  simp only [decodeWord] at h
  split at h
  · exact nomatch h
  · exact (Except.error.inj h).symm

namespace Machine

/-- EXECUTE at two fetched bytes whose word decodes (R173). -/
theorem executeCommand_of_decode {s : State} {hi lo : Byte} {i : Instr} (rnd : Option Byte)
    (hf : s.fetchBytes = some (hi, lo)) (hd : decodeWord (wordOfBytes hi lo) = .ok i) :
    executeCommand rnd s = exec i (s.enter rnd) := by
  simp only [executeCommand, hf, decode_two, hd, Except.map]

/-- EXECUTE at two fetched bytes whose word does not decode (R173, R191). -/
theorem executeCommand_of_error {s : State} {hi lo : Byte} {e : DecodeError} (rnd : Option Byte)
    (hf : s.fetchBytes = some (hi, lo)) (hd : decodeWord (wordOfBytes hi lo) = .error e) :
    executeCommand rnd s = raise .unknownOpcode (s.enter rnd) := by
  simp only [executeCommand, hf, decode_two, hd, Except.map]

/-- EXECUTE where no word can be fetched (R173, R194). -/
theorem executeCommand_of_no_fetch {s : State} (rnd : Option Byte) (hf : s.fetchBytes = none) :
    executeCommand rnd s = raise .memoryOutOfBounds s := by
  simp only [executeCommand, hf]

/-- All that EXECUTE can do (R173). -/
theorem executeCommand_cases (rnd : Option Byte) (s : State) :
    (s.fetchBytes = none ∧ executeCommand rnd s = raise .memoryOutOfBounds s) ∨
    (∃ hi lo, s.fetchBytes = some (hi, lo) ∧
      ((∃ e, decodeWord (wordOfBytes hi lo) = .error e ∧ executeCommand rnd s = raise .unknownOpcode (s.enter rnd)) ∨
       (∃ i, decodeWord (wordOfBytes hi lo) = .ok i ∧ executeCommand rnd s = exec i (s.enter rnd)))) := by
  cases hf : s.fetchBytes with
  | none => exact .inl ⟨rfl, executeCommand_of_no_fetch rnd hf⟩
  | some p =>
    obtain ⟨hi, lo⟩ := p
    refine .inr ⟨hi, lo, rfl, ?_⟩
    cases hd : decodeWord (wordOfBytes hi lo) with
    | error e => exact .inl ⟨e, rfl, executeCommand_of_error rnd hf hd⟩
    | ok i => exact .inr ⟨i, rfl, executeCommand_of_decode rnd hf hd⟩

end Machine

end Sys2Proof
end

