-- ==== Sys2Proof/Laws/State.lean ====
section
/-! SUPPORT. One lemma per field per update of the state, true by rfl, so that no later proof unfolds a record update,
and the register accessors after each update. -/

namespace Sys2Proof.Machine

/-! ## `setV` -/

@[simp] theorem State.setV_v (s : State) (x : Reg) (b : Byte) : (s.setV x b).v = s.v.set x.val b := rfl
@[simp] theorem State.setV_i (s : State) (x : Reg) (b : Byte) : (s.setV x b).i = s.i := rfl
@[simp] theorem State.setV_pc (s : State) (x : Reg) (b : Byte) : (s.setV x b).pc = s.pc := rfl
@[simp] theorem State.setV_stack (s : State) (x : Reg) (b : Byte) : (s.setV x b).stack = s.stack := rfl
@[simp] theorem State.setV_sp (s : State) (x : Reg) (b : Byte) : (s.setV x b).sp = s.sp := rfl
@[simp] theorem State.setV_dt (s : State) (x : Reg) (b : Byte) : (s.setV x b).dt = s.dt := rfl
@[simp] theorem State.setV_st (s : State) (x : Reg) (b : Byte) : (s.setV x b).st = s.st := rfl
@[simp] theorem State.setV_keys (s : State) (x : Reg) (b : Byte) : (s.setV x b).keys = s.keys := rfl
@[simp] theorem State.setV_fb (s : State) (x : Reg) (b : Byte) : (s.setV x b).fb = s.fb := rfl
@[simp] theorem State.setV_mem (s : State) (x : Reg) (b : Byte) : (s.setV x b).mem = s.mem := rfl
@[simp] theorem State.setV_rnd (s : State) (x : Reg) (b : Byte) : (s.setV x b).rnd = s.rnd := rfl
@[simp] theorem State.setV_draws (s : State) (x : Reg) (b : Byte) : (s.setV x b).draws = s.draws := rfl
@[simp] theorem State.setV_pending (s : State) (x : Reg) (b : Byte) : (s.setV x b).pending = s.pending := rfl

/-! ## `setMem` -/

@[simp] theorem State.setMem_v (s : State) (a : Nat) (b : Byte) : (s.setMem a b).v = s.v := rfl
@[simp] theorem State.setMem_i (s : State) (a : Nat) (b : Byte) : (s.setMem a b).i = s.i := rfl
@[simp] theorem State.setMem_pc (s : State) (a : Nat) (b : Byte) : (s.setMem a b).pc = s.pc := rfl
@[simp] theorem State.setMem_stack (s : State) (a : Nat) (b : Byte) : (s.setMem a b).stack = s.stack := rfl
@[simp] theorem State.setMem_sp (s : State) (a : Nat) (b : Byte) : (s.setMem a b).sp = s.sp := rfl
@[simp] theorem State.setMem_dt (s : State) (a : Nat) (b : Byte) : (s.setMem a b).dt = s.dt := rfl
@[simp] theorem State.setMem_st (s : State) (a : Nat) (b : Byte) : (s.setMem a b).st = s.st := rfl
@[simp] theorem State.setMem_keys (s : State) (a : Nat) (b : Byte) : (s.setMem a b).keys = s.keys := rfl
@[simp] theorem State.setMem_fb (s : State) (a : Nat) (b : Byte) : (s.setMem a b).fb = s.fb := rfl
@[simp] theorem State.setMem_mem (s : State) (a : Nat) (b : Byte) : (s.setMem a b).mem = s.mem.write a b := rfl
@[simp] theorem State.setMem_rnd (s : State) (a : Nat) (b : Byte) : (s.setMem a b).rnd = s.rnd := rfl
@[simp] theorem State.setMem_draws (s : State) (a : Nat) (b : Byte) : (s.setMem a b).draws = s.draws := rfl
@[simp] theorem State.setMem_pending (s : State) (a : Nat) (b : Byte) : (s.setMem a b).pending = s.pending := rfl

/-! ## `jump` -/

@[simp] theorem State.jump_v (s : State) (p : Half) : (s.jump p).v = s.v := rfl
@[simp] theorem State.jump_i (s : State) (p : Half) : (s.jump p).i = s.i := rfl
@[simp] theorem State.jump_pc (s : State) (p : Half) : (s.jump p).pc = p := rfl
@[simp] theorem State.jump_stack (s : State) (p : Half) : (s.jump p).stack = s.stack := rfl
@[simp] theorem State.jump_sp (s : State) (p : Half) : (s.jump p).sp = s.sp := rfl
@[simp] theorem State.jump_dt (s : State) (p : Half) : (s.jump p).dt = s.dt := rfl
@[simp] theorem State.jump_st (s : State) (p : Half) : (s.jump p).st = s.st := rfl
@[simp] theorem State.jump_keys (s : State) (p : Half) : (s.jump p).keys = s.keys := rfl
@[simp] theorem State.jump_fb (s : State) (p : Half) : (s.jump p).fb = s.fb := rfl
@[simp] theorem State.jump_mem (s : State) (p : Half) : (s.jump p).mem = s.mem := rfl
@[simp] theorem State.jump_rnd (s : State) (p : Half) : (s.jump p).rnd = s.rnd := rfl
@[simp] theorem State.jump_draws (s : State) (p : Half) : (s.jump p).draws = s.draws := rfl
@[simp] theorem State.jump_pending (s : State) (p : Half) : (s.jump p).pending = s.pending := rfl

/-! ## `setFlag` -/

@[simp] theorem State.setFlag_v (s : State) (b : Bool) : (s.setFlag b).v = s.v.set 15 (flagByte b) := rfl
@[simp] theorem State.setFlag_i (s : State) (b : Bool) : (s.setFlag b).i = s.i := rfl
@[simp] theorem State.setFlag_pc (s : State) (b : Bool) : (s.setFlag b).pc = s.pc := rfl
@[simp] theorem State.setFlag_stack (s : State) (b : Bool) : (s.setFlag b).stack = s.stack := rfl
@[simp] theorem State.setFlag_sp (s : State) (b : Bool) : (s.setFlag b).sp = s.sp := rfl
@[simp] theorem State.setFlag_dt (s : State) (b : Bool) : (s.setFlag b).dt = s.dt := rfl
@[simp] theorem State.setFlag_st (s : State) (b : Bool) : (s.setFlag b).st = s.st := rfl
@[simp] theorem State.setFlag_keys (s : State) (b : Bool) : (s.setFlag b).keys = s.keys := rfl
@[simp] theorem State.setFlag_fb (s : State) (b : Bool) : (s.setFlag b).fb = s.fb := rfl
@[simp] theorem State.setFlag_mem (s : State) (b : Bool) : (s.setFlag b).mem = s.mem := rfl
@[simp] theorem State.setFlag_rnd (s : State) (b : Bool) : (s.setFlag b).rnd = s.rnd := rfl
@[simp] theorem State.setFlag_draws (s : State) (b : Bool) : (s.setFlag b).draws = s.draws := rfl
@[simp] theorem State.setFlag_pending (s : State) (b : Bool) : (s.setFlag b).pending = s.pending := rfl

/-! ## `setResultAndFlag` -/

@[simp] theorem State.setResultAndFlag_v (s : State) (x : Reg) (r : Byte) (b : Bool) : (s.setResultAndFlag x r b).v = (s.v.set x.val r).set 15 (flagByte b) := rfl
@[simp] theorem State.setResultAndFlag_i (s : State) (x : Reg) (r : Byte) (b : Bool) : (s.setResultAndFlag x r b).i = s.i := rfl
@[simp] theorem State.setResultAndFlag_pc (s : State) (x : Reg) (r : Byte) (b : Bool) : (s.setResultAndFlag x r b).pc = s.pc := rfl
@[simp] theorem State.setResultAndFlag_stack (s : State) (x : Reg) (r : Byte) (b : Bool) : (s.setResultAndFlag x r b).stack = s.stack := rfl
@[simp] theorem State.setResultAndFlag_sp (s : State) (x : Reg) (r : Byte) (b : Bool) : (s.setResultAndFlag x r b).sp = s.sp := rfl
@[simp] theorem State.setResultAndFlag_dt (s : State) (x : Reg) (r : Byte) (b : Bool) : (s.setResultAndFlag x r b).dt = s.dt := rfl
@[simp] theorem State.setResultAndFlag_st (s : State) (x : Reg) (r : Byte) (b : Bool) : (s.setResultAndFlag x r b).st = s.st := rfl
@[simp] theorem State.setResultAndFlag_keys (s : State) (x : Reg) (r : Byte) (b : Bool) : (s.setResultAndFlag x r b).keys = s.keys := rfl
@[simp] theorem State.setResultAndFlag_fb (s : State) (x : Reg) (r : Byte) (b : Bool) : (s.setResultAndFlag x r b).fb = s.fb := rfl
@[simp] theorem State.setResultAndFlag_mem (s : State) (x : Reg) (r : Byte) (b : Bool) : (s.setResultAndFlag x r b).mem = s.mem := rfl
@[simp] theorem State.setResultAndFlag_rnd (s : State) (x : Reg) (r : Byte) (b : Bool) : (s.setResultAndFlag x r b).rnd = s.rnd := rfl
@[simp] theorem State.setResultAndFlag_draws (s : State) (x : Reg) (r : Byte) (b : Bool) : (s.setResultAndFlag x r b).draws = s.draws := rfl
@[simp] theorem State.setResultAndFlag_pending (s : State) (x : Reg) (r : Byte) (b : Bool) : (s.setResultAndFlag x r b).pending = s.pending := rfl

/-! ## `enter` -/

@[simp] theorem State.enter_v (s : State) (r : Option Byte) : (s.enter r).v = s.v := rfl
@[simp] theorem State.enter_i (s : State) (r : Option Byte) : (s.enter r).i = s.i := rfl
@[simp] theorem State.enter_pc (s : State) (r : Option Byte) : (s.enter r).pc = s.pc + Config.instrBytes := rfl
@[simp] theorem State.enter_stack (s : State) (r : Option Byte) : (s.enter r).stack = s.stack := rfl
@[simp] theorem State.enter_sp (s : State) (r : Option Byte) : (s.enter r).sp = s.sp := rfl
@[simp] theorem State.enter_dt (s : State) (r : Option Byte) : (s.enter r).dt = s.dt := rfl
@[simp] theorem State.enter_st (s : State) (r : Option Byte) : (s.enter r).st = s.st := rfl
@[simp] theorem State.enter_keys (s : State) (r : Option Byte) : (s.enter r).keys = s.keys := rfl
@[simp] theorem State.enter_fb (s : State) (r : Option Byte) : (s.enter r).fb = s.fb := rfl
@[simp] theorem State.enter_mem (s : State) (r : Option Byte) : (s.enter r).mem = s.mem := rfl
@[simp] theorem State.enter_rnd (s : State) (r : Option Byte) : (s.enter r).rnd = r := rfl
@[simp] theorem State.enter_draws (s : State) (r : Option Byte) : (s.enter r).draws = s.draws := rfl
@[simp] theorem State.enter_pending (s : State) (r : Option Byte) : (s.enter r).pending = s.pending := rfl

/-! ## `skipIf` -/

@[simp] theorem State.skipIf_v (s : State) (c : Bool) : (s.skipIf c).v = s.v := by cases c <;> rfl
@[simp] theorem State.skipIf_i (s : State) (c : Bool) : (s.skipIf c).i = s.i := by cases c <;> rfl
@[simp] theorem State.skipIf_pc (s : State) (c : Bool) :
    (s.skipIf c).pc = if c = true then s.pc + Config.instrBytes else s.pc := by cases c <;> rfl
@[simp] theorem State.skipIf_stack (s : State) (c : Bool) : (s.skipIf c).stack = s.stack := by cases c <;> rfl
@[simp] theorem State.skipIf_sp (s : State) (c : Bool) : (s.skipIf c).sp = s.sp := by cases c <;> rfl
@[simp] theorem State.skipIf_dt (s : State) (c : Bool) : (s.skipIf c).dt = s.dt := by cases c <;> rfl
@[simp] theorem State.skipIf_st (s : State) (c : Bool) : (s.skipIf c).st = s.st := by cases c <;> rfl
@[simp] theorem State.skipIf_keys (s : State) (c : Bool) : (s.skipIf c).keys = s.keys := by cases c <;> rfl
@[simp] theorem State.skipIf_fb (s : State) (c : Bool) : (s.skipIf c).fb = s.fb := by cases c <;> rfl
@[simp] theorem State.skipIf_mem (s : State) (c : Bool) : (s.skipIf c).mem = s.mem := by cases c <;> rfl
@[simp] theorem State.skipIf_rnd (s : State) (c : Bool) : (s.skipIf c).rnd = s.rnd := by cases c <;> rfl
@[simp] theorem State.skipIf_draws (s : State) (c : Bool) : (s.skipIf c).draws = s.draws := by cases c <;> rfl
@[simp] theorem State.skipIf_pending (s : State) (c : Bool) : (s.skipIf c).pending = s.pending := by cases c <;> rfl

/-! ## `reset` -/

@[simp] theorem State.reset_i : State.reset.i = 0 := rfl
@[simp] theorem State.reset_pc : State.reset.pc = 0x200 := rfl
@[simp] theorem State.reset_sp : State.reset.sp = 0 := rfl
@[simp] theorem State.reset_dt : State.reset.dt = 0 := rfl
@[simp] theorem State.reset_st : State.reset.st = 0 := rfl
@[simp] theorem State.reset_mem : State.reset.mem = [] := rfl
@[simp] theorem State.reset_rnd : State.reset.rnd = none := rfl
@[simp] theorem State.reset_draws : State.reset.draws = 0 := rfl
@[simp] theorem State.reset_pending : State.reset.pending = [] := rfl

/-! ## Registers after an update -/

@[simp] theorem State.getV_setV_same (s : State) (x : Reg) (b : Byte) : (s.setV x b).getV x = b := by
  simp [State.getV]

theorem State.getV_setV_ne (s : State) {x y : Reg} (b : Byte) (h : y ≠ x) : (s.setV x b).getV y = s.getV y := by
  have h' : x.val ≠ y.val := fun e => h (Fin.ext e.symm)
  simp [State.getV, h']

theorem State.getV_setV (s : State) (x y : Reg) (b : Byte) :
    (s.setV x b).getV y = if y = x then b else s.getV y := by
  by_cases h : y = x
  · subst h; simp
  · simp [h, State.getV_setV_ne s b h]

@[simp] theorem State.getV_setFlag_vf (s : State) (b : Bool) : (s.setFlag b).getV 15 = flagByte b :=
  State.getV_setV_same s 15 _

theorem State.getV_setFlag_ne (s : State) {y : Reg} (b : Bool) (h : y ≠ 15) : (s.setFlag b).getV y = s.getV y :=
  State.getV_setV_ne s _ h

@[simp] theorem State.getV_setResultAndFlag_vf (s : State) (x : Reg) (r : Byte) (b : Bool) :
    (s.setResultAndFlag x r b).getV 15 = flagByte b := State.getV_setFlag_vf _ b

theorem State.getV_setResultAndFlag_dest (s : State) {x : Reg} (r : Byte) (b : Bool) (h : x ≠ 15) :
    (s.setResultAndFlag x r b).getV x = r := by
  rw [State.setResultAndFlag, State.getV_setFlag_ne _ b h, State.getV_setV_same]

theorem State.getV_setResultAndFlag_ne (s : State) {x y : Reg} (r : Byte) (b : Bool) (hx : y ≠ x) (h : y ≠ 15) :
    (s.setResultAndFlag x r b).getV y = s.getV y := by
  rw [State.setResultAndFlag, State.getV_setFlag_ne _ b h, State.getV_setV_ne _ r hx]

/-- Two states with the same register file have the same registers. -/
theorem State.getV_congr {s t : State} (h : t.v = s.v) (x : Reg) : t.getV x = s.getV x := by
  simp [State.getV, h]

/-- Two states with the same memory read alike. -/
theorem State.readMem_congr {s t : State} (h : t.mem = s.mem) (a : Nat) : t.readMem a = s.readMem a := by
  simp [State.readMem, h]

/-- A flag is 0 or 1 (R12). -/
theorem flagByte_eq_zero_or_one (b : Bool) : flagByte b = 0 ∨ flagByte b = 1 := by cases b <;> simp [flagByte]

@[simp] theorem flagByte_eq_one_iff (b : Bool) : flagByte b = 1 ↔ b = true := by cases b <;> simp [flagByte]

theorem flagByte_decide (p : Prop) [Decidable p] : flagByte (decide p) = if p then 1 else 0 := by
  by_cases h : p <;> simp [flagByte, h]

/-! ## Faults -/

@[simp] theorem Fault.error_of (e : Error) (s : State) : (Fault.of e s).error = e := by cases e <;> rfl

@[simp] theorem Fault.after_of (e : Error) (s : State) : (Fault.of e s).after = s := by cases e <;> rfl

end Sys2Proof.Machine
end

