-- ==== Sys2Proof/Laws/Memory.lean ====
section
/-! SUPPORT. The laws of memory: a read after a write, the canonical form is kept, and it is unique where it has to be
(spec/20_memory.md R43; log 20). -/

namespace Sys2Proof.Machine

@[simp] theorem Memory.read_nil (a : Nat) : Memory.read [] a = Memory.unlisted a := rfl

theorem Memory.read_cons (a' : Nat) (b' : Byte) (m : Memory) (a : Nat) :
    Memory.read ((a', b') :: m) a = if a' = a then b' else Memory.read m a := rfl

/-- A canonical form from `lo` on is one from any lower bound on. -/
theorem Memory.wfFrom_mono {lo lo' : Nat} (h : lo' ≤ lo) {m : Memory} (hm : m.wfFrom lo = true) :
    m.wfFrom lo' = true := by
  cases m with
  | nil => rfl
  | cons p m =>
    obtain ⟨a, b⟩ := p
    simp only [Memory.wfFrom, Bool.and_eq_true, decide_eq_true_eq] at hm ⊢
    exact ⟨⟨⟨by omega, hm.1.1.2⟩, hm.1.2⟩, hm.2⟩

/-- An address below a canonical list is not listed. -/
theorem Memory.read_of_lt {m : Memory} : ∀ {lo a : Nat}, m.wfFrom lo = true → a < lo → m.read a = Memory.unlisted a := by
  induction m with
  | nil => intros; rfl
  | cons p m ih =>
    obtain ⟨a', b'⟩ := p
    intro lo a hm ha
    simp only [Memory.wfFrom, Bool.and_eq_true, decide_eq_true_eq] at hm
    rw [Memory.read_cons, if_neg (by omega)]
    exact ih hm.2 (by omega)

theorem Memory.read_put (m : Memory) (a : Nat) (b : Byte) (c : Nat) :
    (m.put a b).read c = if a = c then b else m.read c := by
  induction m with
  | nil => rfl
  | cons p m ih =>
    obtain ⟨a', b'⟩ := p
    simp only [Memory.put]
    split
    · rfl
    · split
      · subst a'; simp only [Memory.read_cons]; split <;> rfl
      · rw [Memory.read_cons, ih, Memory.read_cons]; split <;> split <;> first | rfl | omega

theorem Memory.read_remove (m : Memory) (a c : Nat) :
    (m.remove a).read c = if a = c then Memory.unlisted c else m.read c := by
  induction m with
  | nil => simp [Memory.remove]
  | cons p m ih =>
    obtain ⟨a', b'⟩ := p
    simp only [Memory.remove]
    split
    · subst a'; rw [ih, Memory.read_cons]; split <;> rfl
    · rw [Memory.read_cons, ih, Memory.read_cons]; split <;> split <;> first | rfl | omega

/-- A read after a write: the byte written at the address, every other byte as before (R43). It holds of every list,
canonical or not. -/
theorem Memory.read_write (m : Memory) (a : Nat) (b : Byte) (c : Nat) :
    (m.write a b).read c = if a = c then b else m.read c := by
  simp only [Memory.write]
  split
  · rw [Memory.read_remove]; split
    · subst c; exact (‹b = _›).symm
    · rfl
  · exact Memory.read_put m a b c

theorem Memory.wfFrom_put {m : Memory} : ∀ {lo a : Nat} {b : Byte}, m.wfFrom lo = true → lo ≤ a → a < 4096 →
    b ≠ Memory.unlisted a → (m.put a b).wfFrom lo = true := by
  induction m with
  | nil => intro lo a b _ h1 h2 h3; simp [Memory.put, Memory.wfFrom, h1, h2, h3]
  | cons p m ih =>
    obtain ⟨a', b'⟩ := p
    intro lo a b hm h1 h2 h3
    simp only [Memory.wfFrom, Bool.and_eq_true, decide_eq_true_eq] at hm
    simp only [Memory.put]
    split
    · simp only [Memory.wfFrom, Bool.and_eq_true, decide_eq_true_eq]
      exact ⟨⟨⟨h1, h2⟩, h3⟩, ⟨⟨by omega, hm.1.1.2⟩, hm.1.2⟩, hm.2⟩
    · split
      · subst a'
        simp only [Memory.wfFrom, Bool.and_eq_true, decide_eq_true_eq]
        exact ⟨⟨⟨h1, h2⟩, h3⟩, hm.2⟩
      · simp only [Memory.wfFrom, Bool.and_eq_true, decide_eq_true_eq]
        exact ⟨hm.1, ih hm.2 (by omega) h2 h3⟩

theorem Memory.wfFrom_remove {m : Memory} : ∀ {lo : Nat} (a : Nat), m.wfFrom lo = true →
    (m.remove a).wfFrom lo = true := by
  induction m with
  | nil => intros; rfl
  | cons p m ih =>
    obtain ⟨a', b'⟩ := p
    intro lo a hm
    simp only [Memory.wfFrom, Bool.and_eq_true, decide_eq_true_eq] at hm
    simp only [Memory.remove]
    split
    · exact Memory.wfFrom_mono (by omega) (ih a hm.2)
    · simp only [Memory.wfFrom, Bool.and_eq_true, decide_eq_true_eq]
      exact ⟨hm.1, ih a hm.2⟩

/-- A write in the address space keeps the canonical form. -/
theorem Memory.wf_write {m : Memory} (hm : m.wf = true) {a : Nat} (b : Byte) (ha : a < 4096) :
    (m.write a b).wf = true := by
  simp only [Memory.write]
  split
  · exact Memory.wfFrom_remove a hm
  · exact Memory.wfFrom_put hm (Nat.zero_le a) ha ‹_›

@[simp] theorem Memory.wf_nil : Memory.wf [] = true := rfl

/-! ## Through the state -/

/-- A read after a write, through the state. -/
theorem State.readMem_setMem (s : State) {a : Nat} (b : Byte) (c : Nat) (h : a < 4096) :
    (s.setMem a b).readMem c = if a = c then some b else s.readMem c := by
  simp only [State.readMem, State.setMem_mem, Memory.read_write]
  by_cases e : a = c
  · subst e; simp [h]
  · simp [e]

theorem State.readMem_of_lt (s : State) {a : Nat} (h : a < 4096) : s.readMem a = some (s.mem.read a) := if_pos h

theorem State.readMem_of_ge (s : State) {a : Nat} (h : 4096 ≤ a) : s.readMem a = none := if_neg (Nat.not_lt.mpr h)

theorem State.writeMem_of_lt (s : State) {a : Nat} (b : Byte) (h : a < 4096) : s.writeMem a b = some (s.setMem a b) :=
  if_pos h

theorem State.writeMem_of_ge (s : State) {a : Nat} (b : Byte) (h : 4096 ≤ a) : s.writeMem a b = none :=
  if_neg (Nat.not_lt.mpr h)

/-- What a read answers says that the address is in the address space. -/
theorem State.readMem_eq_some {s : State} {a : Nat} {b : Byte} :
    s.readMem a = some b ↔ a < 4096 ∧ s.mem.read a = b := by
  simp [State.readMem]

end Sys2Proof.Machine
end

