-- ==== Sys2Proof/Laws/Display.lean ====
section
/-! SUPPORT. What drawing does: the pixels of a sprite byte and of a whole sprite (spec/43_display.md R141). -/

namespace Sys2Proof.Machine

theorem cellOf_val (row col : Nat) : (cellOf row col).val = row % 32 * 64 + col % 64 := rfl

/-- Two pixels of one cell are in the same row and the same column, on the folded grid (R141). -/
theorem cellOf_inj {row col row' col' : Nat} (h : cellOf row col = cellOf row' col') :
    row % 32 = row' % 32 ∧ col % 64 = col' % 64 := by
  have := congrArg Fin.val h
  rw [cellOf_val, cellOf_val] at this
  omega

@[simp] theorem FrameBuffer.pixel_toggle_same (fb : FrameBuffer) (k : Fin 2048) : (fb.toggle k).pixel k = !fb.pixel k := by
  simp [FrameBuffer.pixel, FrameBuffer.toggle]

theorem FrameBuffer.pixel_toggle_ne (fb : FrameBuffer) {k j : Fin 2048} (h : j ≠ k) :
    (fb.toggle k).pixel j = fb.pixel j := by
  have h' : k.val ≠ j.val := fun e => h (Fin.ext e.symm)
  simp [FrameBuffer.pixel, FrameBuffer.toggle, h']

/-- A bit of a sprite byte that lands on a cell. -/
def bitLands (b : Byte) (row col c : Nat) (k : Fin 2048) : Bool := b.getMsbD c && (cellOf row (col + c) == k)

/-- Bits in distinct columns: a pixel changes exactly when one of them lands on it, and the collision reports a bit that
landed on a lit pixel (R141). -/
theorem drawBits_spec (b : Byte) (row col : Nat) (cs : List Nat) : ∀ (fb : FrameBuffer) (hit : Bool), cs.Nodup →
    (∀ c ∈ cs, c < 8) →
    (∀ k, (drawBits b row col cs (fb, hit)).1.pixel k = (fb.pixel k ^^ cs.any fun c => bitLands b row col c k)) ∧
    (drawBits b row col cs (fb, hit)).2 =
      (hit || cs.any fun c => b.getMsbD c && fb.pixel (cellOf row (col + c))) := by
  induction cs with
  | nil => intro fb hit _ _; simp [drawBits]
  | cons c cs ih =>
    intro fb hit hnd hlt
    rw [List.nodup_cons] at hnd
    have hlt' : ∀ d ∈ cs, d < 8 := fun d hd => hlt d (List.mem_cons_of_mem _ hd)
    have hne : ∀ d ∈ cs, cellOf row (col + d) ≠ cellOf row (col + c) := by
      intro d hd e
      have h1 := (cellOf_inj e).2
      have h2 := hlt d (List.mem_cons_of_mem _ hd)
      have h3 := hlt c List.mem_cons_self
      exact hnd.1 (by rwa [show c = d by omega])
    by_cases hb : b.getMsbD c
    · simp only [drawBits, hb, if_true, List.any_cons, Bool.true_and]
      obtain ⟨h1, h2⟩ := ih (fb.toggle (cellOf row (col + c))) (hit || fb.pixel (cellOf row (col + c))) hnd.2 hlt'
      refine ⟨fun k => ?_, ?_⟩
      · rw [h1 k]
        by_cases hk : k = cellOf row (col + c)
        · subst hk
          have : (cs.any fun d => bitLands b row col d (cellOf row (col + c))) = false := by
            rw [List.any_eq_false]
            intro d hd
            simp [bitLands, hne d hd]
          rw [this]
          simp [bitLands, hb]
        · rw [FrameBuffer.pixel_toggle_ne _ hk]
          simp [bitLands, Ne.symm hk]
      · rw [h2, Bool.or_assoc]
        congr 1
        congr 1
        have : ∀ l : List Nat, (∀ d ∈ l, cellOf row (col + d) ≠ cellOf row (col + c)) →
            (l.any fun d => b.getMsbD d && (fb.toggle (cellOf row (col + c))).pixel (cellOf row (col + d))) =
            l.any fun d => b.getMsbD d && fb.pixel (cellOf row (col + d)) := by
          intro l
          induction l with
          | nil => intro _; rfl
          | cons d l ihl =>
            intro h
            rw [List.any_cons, List.any_cons, ihl fun e he => h e (List.mem_cons_of_mem _ he),
              FrameBuffer.pixel_toggle_ne _ (h d List.mem_cons_self)]
        exact this cs hne
    · simp only [drawBits, hb, List.any_cons, Bool.false_and, Bool.false_or, bitLands]
      exact ih fb hit hnd.2 hlt'

/-- Some bit of a sprite byte lands on a cell. -/
def byteLands (b : Byte) (row col : Nat) (k : Fin 2048) : Bool := (List.range 8).any fun c => bitLands b row col c k

theorem byteLands_iff (b : Byte) (row col : Nat) (k : Fin 2048) :
    byteLands b row col k = true ↔ ∃ c, c < 8 ∧ b.getMsbD c = true ∧ cellOf row (col + c) = k := by
  simp [byteLands, bitLands]

/-- One sprite row (R141). -/
theorem drawByte_spec (b : Byte) (row col : Nat) (fb : FrameBuffer) (hit : Bool) :
    (∀ k, (drawByte b row col (fb, hit)).1.pixel k = (fb.pixel k ^^ byteLands b row col k)) ∧
    ((drawByte b row col (fb, hit)).2 = true ↔ hit = true ∨ ∃ k, byteLands b row col k = true ∧ fb.pixel k = true) := by
  obtain ⟨h1, h2⟩ := drawBits_spec b row col (List.range 8) fb hit List.nodup_range (fun c hc => List.mem_range.mp hc)
  refine ⟨h1, ?_⟩
  rw [drawByte, h2]
  simp only [Bool.or_eq_true, List.any_eq_true, List.mem_range, Bool.and_eq_true, byteLands_iff]
  constructor
  · rintro (h | ⟨c, h3, h4, h5⟩)
    · exact .inl h
    · exact .inr ⟨_, ⟨c, h3, h4, rfl⟩, h5⟩
  · rintro (h | ⟨k, ⟨c, h3, h4, rfl⟩, h5⟩)
    · exact .inl h
    · exact .inr ⟨c, h3, h4, h5⟩

/-- Rows of a sprite on one cell, at the sprite's bytes in memory. -/
def rowLands (s : State) (x y : Byte) (r : Nat) (k : Fin 2048) : Bool :=
  byteLands (s.mem.read (s.i.toNat + r)) (y.toNat + r) x.toNat k

theorem rowLands_row {s : State} {x y : Byte} {r : Nat} {k : Fin 2048} (h : rowLands s x y r k = true) :
    k.val / 64 = (y.toNat + r) % 32 := by
  obtain ⟨c, _, _, rfl⟩ := (byteLands_iff _ _ _ _).mp h
  rw [cellOf_val]; omega

/-- The rows `r0` to `r0 + n - 1` of a sprite, all in bounds, at most 32 of them: they end with the flag written, a
pixel is toggled exactly when a row lands on it, and the collision reports a row that landed on a pixel lit at the
start (R141). With `tail` rows after them the draw goes on from there. -/
theorem drawRows_spec (x y : Byte) (tail : List Nat) (n : Nat) : ∀ (r0 : Nat) (hit : Bool) (s : State), n ≤ 32 →
    (n = 0 ∨ s.i.toNat + r0 + n ≤ 4096) → ∃ (fb : FrameBuffer) (hit' : Bool),
    drawRows x y (List.range' r0 n ++ tail) hit s = drawRows x y tail hit' { s with fb := fb } ∧
    (∀ k, fb.pixel k ≠ s.fb.pixel k ↔ ∃ r, r0 ≤ r ∧ r < r0 + n ∧ rowLands s x y r k = true) ∧
    (hit' = true ↔ hit = true ∨ ∃ r k, r0 ≤ r ∧ r < r0 + n ∧ rowLands s x y r k = true ∧ s.fb.pixel k = true) := by
  induction n with
  | zero =>
    intro r0 hit s _ _
    refine ⟨s.fb, hit, rfl, fun k => ?_, ?_⟩
    · constructor
      · intro h; exact absurd rfl h
      · rintro ⟨r, h1, h2, _⟩; omega
    · constructor
      · exact .inl
      · rintro (h | ⟨r, k, h1, h2, _⟩)
        · exact h
        · omega
  | succ n ih =>
    intro r0 hit s hn hb
    have hread : s.readMem (s.effAddr r0) = some (s.mem.read (s.i.toNat + r0)) := s.readMem_of_lt (by show s.i.toNat + r0 < 4096; omega)
    obtain ⟨hd1, hd2⟩ := drawByte_spec (s.mem.read (s.i.toNat + r0)) (y.toNat + r0) x.toNat s.fb hit
    generalize hd : drawByte (s.mem.read (s.i.toNat + r0)) (y.toNat + r0) x.toNat (s.fb, hit) = d at hd1 hd2
    obtain ⟨fb, hit', h1, h2, h3⟩ := ih (r0 + 1) d.2 { s with fb := d.1 } (by omega) (by right; show s.i.toNat + _ + _ ≤ _; omega)
    have hsame : ∀ r k, rowLands { s with fb := d.1 } x y r k = rowLands s x y r k := fun _ _ => rfl
    simp only [hsame] at h2 h3
    -- the first row is disjoint from the later ones
    have hdis : ∀ k, rowLands s x y r0 k = true → ∀ r, r0 + 1 ≤ r → r < r0 + 1 + n → rowLands s x y r k = false := by
      intro k hk r hr1 hr2
      by_contra hc
      have e1 := rowLands_row hk
      have e2 := rowLands_row (Bool.eq_true_of_not_eq_false hc)
      omega
    refine ⟨fb, hit', ?_, fun k => ?_, ?_⟩
    · rw [List.range'_succ, List.cons_append]
      simp only [drawRows, hread, hd]
      exact h1
    · have hk := hd1 k
      have h2k := h2 k
      change _ = (s.fb.pixel k ^^ rowLands s x y r0 k) at hk
      change fb.pixel k ≠ d.1.pixel k ↔ _ at h2k
      by_cases hr : rowLands s x y r0 k = true
      · rw [hr, Bool.xor_true] at hk
        have hno : ¬ fb.pixel k ≠ d.1.pixel k := by
          rw [h2k]; rintro ⟨r, a, b, c⟩; rw [hdis k hr r a b] at c; exact absurd c (by simp)
        rw [not_not] at hno
        constructor
        · intro _; exact ⟨r0, le_refl _, by omega, hr⟩
        · intro _; rw [hno, hk]; simp
      · rw [Bool.eq_false_of_not_eq_true hr, Bool.xor_false] at hk
        rw [← hk, h2k]
        constructor
        · rintro ⟨r, a, b, c⟩; exact ⟨r, by omega, by omega, c⟩
        · rintro ⟨r, a, b, c⟩
          have : r ≠ r0 := fun e => hr (e ▸ c)
          exact ⟨r, by omega, by omega, c⟩
    · rw [h3, hd2]
      constructor
      · rintro ((h | ⟨k, a, b⟩) | ⟨r, k, a, b, c, e⟩)
        · exact .inl h
        · exact .inr ⟨r0, k, le_refl _, by omega, a, b⟩
        · refine .inr ⟨r, k, by omega, by omega, c, ?_⟩
          have hk := hd1 k
          change _ = (s.fb.pixel k ^^ rowLands s x y r0 k) at hk
          have : rowLands s x y r0 k = false := by
            by_contra hc
            rw [hdis k (Bool.eq_true_of_not_eq_false hc) r a b] at c
            exact absurd c (by simp)
          rw [this, Bool.xor_false] at hk
          rw [← hk]; exact e
      · rintro (h | ⟨r, k, a, b, c, e⟩)
        · exact .inl (.inl h)
        · by_cases hr : r = r0
          · subst hr; exact .inl (.inr ⟨k, c, e⟩)
          · refine .inr ⟨r, k, by omega, by omega, c, ?_⟩
            have hk := hd1 k
            change _ = (s.fb.pixel k ^^ rowLands s x y r0 k) at hk
            have : rowLands s x y r0 k = false := by
              by_contra hc
              rw [hdis k (Bool.eq_true_of_not_eq_false hc) r (by omega) (by omega)] at c
              exact absurd c (by simp)
            rw [this, Bool.xor_false] at hk
            show d.1.pixel k = true
            rw [hk]; exact e

end Sys2Proof.Machine
end

