-- ==== Sys2Proof/Laws/Ops.lean ====
section
/-! SUPPORT. One lemma per shared operation that says all it can do: storing and loading bytes, the call stack, the
fetch, keys (spec/20_memory.md, spec/10_state.md). -/

namespace Sys2Proof.Machine

/-! ## Storing bytes -/

/-- Storing a byte sequence changes memory only, keeps its canonical form, and answers next exactly when no byte falls
past address 4095; either way the bytes in bounds are stored and every other byte is as before (R43, R198). -/
theorem storeBytes_spec (e : Error) (bs : List Byte) : ∀ (a : Nat) (s : State), ∃ m : Memory,
    storeBytes e bs a s =
      (if bs = [] ∨ a + bs.length ≤ 4096 then .next { s with mem := m } else raise e { s with mem := m }) ∧
    (s.mem.wf = true → m.wf = true) ∧
    ∀ c, m.read c = ((if a ≤ c ∧ c < 4096 then bs[c - a]? else none).getD (s.mem.read c)) := by
  induction bs with
  | nil => intro a s; exact ⟨s.mem, by simp [storeBytes], id, by intro c; split <;> simp⟩
  | cons b bs ih =>
    intro a s
    by_cases ha : a < 4096
    · obtain ⟨m, h1, h2, h3⟩ := ih (a + 1) (s.setMem a b)
      refine ⟨m, ?_, fun h => h2 (Memory.wf_write h b ha), ?_⟩
      · simp only [storeBytes, s.writeMem_of_lt b ha]
        rw [h1]
        have : (b :: bs = [] ∨ a + (b :: bs).length ≤ 4096) ↔ (bs = [] ∨ a + 1 + bs.length ≤ 4096) := by
          cases bs <;> simp <;> omega
        simp only [this]
        rfl
      · intro c
        rw [h3 c, State.setMem_mem, Memory.read_write]
        by_cases hc : a = c
        · subst hc; simp [ha]
        · by_cases hlt : a + 1 ≤ c ∧ c < 4096
          · rw [if_neg hc, if_pos hlt, if_pos ⟨by omega, hlt.2⟩, show c - a = (c - (a + 1)) + 1 by omega]
            simp
          · rw [if_neg hc, if_neg hlt, if_neg (by omega)]
    · refine ⟨s.mem, ?_, id, ?_⟩
      · simp only [storeBytes, s.writeMem_of_ge b (Nat.not_lt.mp ha)]
        rw [if_neg]
        simp; omega
      · intro c; rw [if_neg (by omega)]; rfl

/-- A store that goes on: memory alone has changed, and it holds the bytes (R43). -/
theorem storeBytes_eq_next {e : Error} {bs : List Byte} {a : Nat} {s t : State} (h : storeBytes e bs a s = .next t) :
    ∃ m : Memory, t = { s with mem := m } ∧
      ∀ c, m.read c = ((if a ≤ c ∧ c < 4096 then bs[c - a]? else none).getD (s.mem.read c)) := by
  obtain ⟨m, h1, _, h3⟩ := storeBytes_spec e bs a s
  rw [h1] at h
  split at h
  · cases h; exact ⟨m, rfl, h3⟩
  · exact nomatch h

/-! ## Registers V0 to VX -/

theorem regsUpTo_length (x : Reg) : (regsUpTo x).length = x.val + 1 := by
  simp [regsUpTo]

theorem regsUpTo_getElem? (x : Reg) (k : Nat) :
    (regsUpTo x)[k]? = if h : k ≤ x.val then some ⟨k, by omega⟩ else none := by
  have hx := x.isLt
  simp only [regsUpTo, List.getElem?_take]
  by_cases h : k ≤ x.val
  · rw [dif_pos h, if_pos (by omega), List.getElem?_eq_getElem (by simp; omega)]
    simp [List.getElem_finRange]
  · rw [dif_neg h, if_neg (by omega)]

theorem valuesUpTo_length (s : State) (x : Reg) : (s.valuesUpTo x).length = x.val + 1 := by
  simp [State.valuesUpTo, regsUpTo_length]

theorem valuesUpTo_getElem? (s : State) (x : Reg) (k : Nat) :
    (s.valuesUpTo x)[k]? = if h : k ≤ x.val then some (s.getV ⟨k, by omega⟩) else none := by
  simp only [State.valuesUpTo, List.getElem?_map, regsUpTo_getElem?]
  split <;> rfl

/-! ## Loading bytes -/

/-- Loading registers from memory changes registers only, and answers next exactly when no read falls past address
4095; either way the `k`-th register of the list holds the byte at `a + k` where that is in bounds, and every other
register is as before (R43, R125, R198). The registers of the list are distinct. -/
theorem loadBytes_spec (xs : List Reg) : ∀ (a : Nat) (s : State), xs.Nodup → ∃ v : Vector Byte 16,
    loadBytes xs a s =
      (if xs = [] ∨ a + xs.length ≤ 4096 then .next { s with v := v } else raise .memoryOutOfBounds { s with v := v }) ∧
    (∀ (k : Nat) (r : Reg), xs[k]? = some r → v[r.val] = if a + k < 4096 then s.mem.read (a + k) else s.getV r) ∧
    ∀ r : Reg, r ∉ xs → v[r.val] = s.getV r := by
  induction xs with
  | nil => intro a s _; exact ⟨s.v, by simp [loadBytes], by simp, fun r _ => rfl⟩
  | cons x xs ih =>
    intro a s hnd
    rw [List.nodup_cons] at hnd
    by_cases ha : a < 4096
    · obtain ⟨v, h1, h2, h3⟩ := ih (a + 1) (s.setV x (s.mem.read a)) hnd.2
      refine ⟨v, ?_, ?_, ?_⟩
      · simp only [loadBytes, s.readMem_of_lt ha]
        rw [h1]
        have : (x :: xs = [] ∨ a + (x :: xs).length ≤ 4096) ↔ (xs = [] ∨ a + 1 + xs.length ≤ 4096) := by
          cases xs <;> simp <;> omega
        simp only [this]
        rfl
      · intro k r hk
        cases k with
        | zero =>
          simp at hk; subst hk
          rw [h3 x hnd.1]; simp [ha]
        | succ k =>
          simp at hk
          have hne : r ≠ x := fun e => hnd.1 (e ▸ List.mem_of_getElem? hk)
          rw [h2 k r hk, State.getV_setV_ne _ _ hne, State.setV_mem, show a + 1 + k = a + (k + 1) by omega]
      · intro r hr
        rw [List.mem_cons, not_or] at hr
        rw [h3 r hr.2, State.getV_setV_ne _ _ hr.1]
    · refine ⟨s.v, ?_, ?_, fun r _ => rfl⟩
      · simp only [loadBytes, s.readMem_of_ge (Nat.not_lt.mp ha)]
        rw [if_neg]
        simp; omega
      · intro k r _; rw [if_neg (by omega)]; rfl

theorem regsUpTo_nodup (x : Reg) : (regsUpTo x).Nodup := (List.take_sublist _ _).nodup (List.nodup_finRange 16)

theorem mem_regsUpTo (x r : Reg) : r ∈ regsUpTo x ↔ r ≤ x := by
  rw [List.mem_iff_getElem?]
  constructor
  · rintro ⟨k, hk⟩
    rw [regsUpTo_getElem?] at hk
    split at hk
    · simp at hk; subst hk; exact ‹k ≤ _›
    · simp at hk
  · intro h
    exact ⟨r.val, by rw [regsUpTo_getElem?, dif_pos (Fin.le_def.mp h)]⟩

/-! ## The call stack -/

/-- A push succeeds exactly with a free slot (R17, R83). -/
theorem State.push_eq_some {s t : State} :
    s.push = some t ↔ ∃ h : s.sp.val < 16,
      t = { s with stack := s.stack.set s.sp.val s.pc, sp := ⟨s.sp.val + 1, by omega⟩ } := by
  by_cases h : s.sp.val < 16
  · rw [State.push, dif_pos h]
    constructor
    · intro e; exact ⟨h, (Option.some.inj e).symm⟩
    · rintro ⟨_, rfl⟩; rfl
  · rw [State.push, dif_neg h]
    exact ⟨(fun e => nomatch e), fun ⟨h', _⟩ => absurd h' h⟩

theorem State.push_eq_none {s : State} : s.push = none ↔ s.sp.val = 16 := by
  have := s.sp.isLt
  simp only [State.push]
  split <;> simp <;> omega

/-- A pop succeeds exactly with a used slot (R17, R81). -/
theorem State.pop_eq_some {s t : State} :
    s.pop = some t ↔ ∃ h : 0 < s.sp.val,
      t = { s with sp := ⟨s.sp.val - 1, by omega⟩, pc := s.stack[s.sp.val - 1] } := by
  by_cases h : 0 < s.sp.val
  · rw [State.pop, dif_pos h]
    constructor
    · intro e; exact ⟨h, (Option.some.inj e).symm⟩
    · rintro ⟨_, rfl⟩; rfl
  · rw [State.pop, dif_neg h]
    exact ⟨(fun e => nomatch e), fun ⟨h', _⟩ => absurd h' h⟩

theorem State.pop_eq_none {s : State} : s.pop = none ↔ s.sp.val = 0 := by
  simp only [State.pop]
  split <;> simp <;> omega

/-! ## The fetch -/

/-- A fetch succeeds exactly with both bytes in the address space (R173). -/
theorem State.fetchBytes_eq_some {s : State} {hi lo : Byte} :
    s.fetchBytes = some (hi, lo) ↔ s.readMem s.pc.toNat = some hi ∧ s.readMem (s.pc.toNat + 1) = some lo := by
  simp only [State.fetchBytes]
  split
  · rename_i h1 h2; rw [h1, h2]; simp
  · rename_i h
    constructor
    · intro h'; simp at h'
    · rintro ⟨h1, h2⟩; exact absurd h2 (h hi lo h1)

theorem State.fetchBytes_eq_none {s : State} : s.fetchBytes = none ↔ 4095 ≤ s.pc.toNat := by
  simp only [State.fetchBytes, State.readMem]
  by_cases h : s.pc.toNat + 1 < 4096
  · have : s.pc.toNat < 4096 := by omega
    simp [h, this]; omega
  · simp [h]; omega

/-! ## Keys -/

theorem keyNumber_eq_some {b : Byte} {k : Key} : keyNumber b = some k ↔ b.toNat = k.val := by
  simp only [keyNumber]
  split
  · simp [Fin.ext_iff]
  · simp; omega

theorem keyNumber_eq_none {b : Byte} : keyNumber b = none ↔ 16 ≤ b.toNat := by
  simp only [keyNumber]
  split <;> simp <;> omega

/-- The lowest pressed key is pressed, and no lower one is (R153). -/
theorem State.lowestKey_eq_some {s : State} {k : Key} :
    s.lowestKey = some k ↔ s.keys[k.val] = true ∧ ∀ j : Key, j < k → s.keys[j.val] = false := by
  simp only [State.lowestKey, List.find?_eq_some_iff_getElem]
  constructor
  · rintro ⟨h1, i, hi, h2, h3⟩
    refine ⟨h1, fun j hj => ?_⟩
    simp at h2 hi
    have := h3 j.val (by subst h2; exact hj)
    simpa using this
  · rintro ⟨h1, h2⟩
    refine ⟨h1, k.val, by simp, by simp, fun j hj => ?_⟩
    simpa using h2 ⟨j, by omega⟩ (by simpa [Fin.lt_def] using hj)

theorem State.lowestKey_eq_none {s : State} : s.lowestKey = none ↔ ∀ k : Key, s.keys[k.val] = false := by
  simp [State.lowestKey]

@[simp] theorem keyByte_toNat (k : Key) : (keyByte k).toNat = k.val := by
  have := k.isLt
  simp [keyByte]; omega

/-! ## What the driver receives -/

theorem response_of_next {c : Command} {s t : State} (h : command c s = .next t) :
    response c s = successResponse c s := by
  simp only [response, h]

theorem response_of_fault {c : Command} {s : State} {f : Fault} (h : command c s = .fault f) :
    response c s = .error f.error := by
  simp only [response, h]

theorem stateAfter_of_next {c : Command} {s t : State} (h : command c s = .next t) : stateAfter c s = t := by
  simp only [stateAfter, h]

theorem stateAfter_of_fault {c : Command} {s : State} {f : Fault} (h : command c s = .fault f) :
    stateAfter c s = f.after := by
  simp only [stateAfter, h]

end Sys2Proof.Machine
end

