-- ==== Sys2Proof/Laws/PerInstr.lean ====
section
/-! SUPPORT. A statement about every instruction as syntax, one lemma per constructor. Family FitsRow: the instruction's
operands fit their fields, and its word matches its row of the opcode map, that is: no operand bit falls on a fixed bit
(spec/30_encoding.md R61, R65). -/

namespace Sys2Proof.Laws.FitsRow

/-- The operands fit their fields (R61) and the word matches the row (R65). -/
def Statement (i : Instr) : Prop := i.wellFormed = true ∧ i.row.accepts (encode i) = true

theorem fitsX (x : Reg) : (fieldX x.val).fits = true := decide_eq_true x.isLt
theorem fitsY (y : Reg) : (fieldY y.val).fits = true := decide_eq_true y.isLt
theorem fitsN (n : BitVec 4) : (fieldN n.toNat).fits = true := decide_eq_true n.isLt
theorem fitsNN (nn : Byte) : (fieldNN nn.toNat).fits = true := decide_eq_true nn.isLt
theorem fitsNNN (nnn : BitVec 12) : (fieldNNN nnn.toNat).fits = true := decide_eq_true nnn.isLt

/-- An append whose fixed fields are masked in and whose operands are masked out matches its row. -/
theorem rowNNN (op : BitVec 4) (nnn : BitVec 12) : (wordNNN op nnn &&& (0xF000 : Half)) = op ++ (0 : BitVec 12) := by
  have h : (0xF000 : Half) = (0xF : BitVec 4) ++ (0 : BitVec 12) := rfl
  rw [wordNNN, h, BitVec.and_append]
  congr 1
  · exact BitVec.and_allOnes
  · simp

theorem rowXNN (op : BitVec 4) (x : Reg) (nn : Byte) :
    (wordXNN op x nn &&& (0xF000 : Half)) = op ++ (0 : BitVec 12) := rowNNN op (regBits x ++ nn)

theorem rowXYN (op : BitVec 4) (x y : Reg) (n : BitVec 4) :
    (wordXYN op x y n &&& (0xF000 : Half)) = op ++ (0 : BitVec 12) := rowNNN op (regBits x ++ (regBits y ++ n))

theorem rowXY (op : BitVec 4) (x y : Reg) (n : BitVec 4) :
    (wordXYN op x y n &&& (0xF00F : Half)) = op ++ ((0 : BitVec 4) ++ ((0 : BitVec 4) ++ n)) := by
  have h : (0xF00F : Half) = (0xF : BitVec 4) ++ ((0 : BitVec 4) ++ ((0 : BitVec 4) ++ (0xF : BitVec 4))) := rfl
  rw [wordXYN, h, BitVec.and_append, BitVec.and_append, BitVec.and_append]
  have e1 : op &&& 0xF = op := BitVec.and_allOnes
  have e2 : n &&& 0xF = n := BitVec.and_allOnes
  have e0 : ∀ b : BitVec 4, b &&& 0 = 0 := fun _ => BitVec.and_zero
  rw [e1, e2, e0, e0]

theorem rowX (op : BitVec 4) (x : Reg) (minor : Byte) :
    (wordX op x minor &&& (0xF0FF : Half)) = op ++ ((0 : BitVec 4) ++ minor) := by
  have h : (0xF0FF : Half) = (0xF : BitVec 4) ++ ((0 : BitVec 4) ++ (0xFF : BitVec 8)) := rfl
  rw [wordX, h, BitVec.and_append, BitVec.and_append]
  have e1 : op &&& 0xF = op := BitVec.and_allOnes
  have e2 : minor &&& 0xFF = minor := BitVec.and_allOnes
  have e0 : regBits x &&& 0 = 0 := BitVec.and_zero
  rw [e1, e2, e0]


theorem nop : Statement (.nop) := ⟨rfl, rfl⟩

theorem cls : Statement (.cls) := ⟨rfl, rfl⟩

theorem ret : Statement (.ret) := ⟨rfl, rfl⟩

theorem jp (nnn : BitVec 12) : Statement (.jp nnn) := by
  refine ⟨?_, ?_⟩
  · simp [Instr.wellFormed, Instr.fields, fitsNNN nnn]
  · exact beq_iff_eq.mpr (rowNNN _ nnn)

theorem call (nnn : BitVec 12) : Statement (.call nnn) := by
  refine ⟨?_, ?_⟩
  · simp [Instr.wellFormed, Instr.fields, fitsNNN nnn]
  · exact beq_iff_eq.mpr (rowNNN _ nnn)

theorem seImm (x : Reg) (nn : Byte) : Statement (.seImm x nn) := by
  refine ⟨?_, ?_⟩
  · simp [Instr.wellFormed, Instr.fields, fitsX x, fitsNN nn]
  · exact beq_iff_eq.mpr (rowXNN _ x nn)

theorem sneImm (x : Reg) (nn : Byte) : Statement (.sneImm x nn) := by
  refine ⟨?_, ?_⟩
  · simp [Instr.wellFormed, Instr.fields, fitsX x, fitsNN nn]
  · exact beq_iff_eq.mpr (rowXNN _ x nn)

theorem seReg (x y : Reg) : Statement (.seReg x y) := by
  refine ⟨?_, ?_⟩
  · simp [Instr.wellFormed, Instr.fields, fitsX x, fitsY y]
  · exact beq_iff_eq.mpr (rowXY _ x y _)

theorem ldImm (x : Reg) (nn : Byte) : Statement (.ldImm x nn) := by
  refine ⟨?_, ?_⟩
  · simp [Instr.wellFormed, Instr.fields, fitsX x, fitsNN nn]
  · exact beq_iff_eq.mpr (rowXNN _ x nn)

theorem addImm (x : Reg) (nn : Byte) : Statement (.addImm x nn) := by
  refine ⟨?_, ?_⟩
  · simp [Instr.wellFormed, Instr.fields, fitsX x, fitsNN nn]
  · exact beq_iff_eq.mpr (rowXNN _ x nn)

theorem ldReg (x y : Reg) : Statement (.ldReg x y) := by
  refine ⟨?_, ?_⟩
  · simp [Instr.wellFormed, Instr.fields, fitsX x, fitsY y]
  · exact beq_iff_eq.mpr (rowXY _ x y _)

theorem orReg (x y : Reg) : Statement (.orReg x y) := by
  refine ⟨?_, ?_⟩
  · simp [Instr.wellFormed, Instr.fields, fitsX x, fitsY y]
  · exact beq_iff_eq.mpr (rowXY _ x y _)

theorem andReg (x y : Reg) : Statement (.andReg x y) := by
  refine ⟨?_, ?_⟩
  · simp [Instr.wellFormed, Instr.fields, fitsX x, fitsY y]
  · exact beq_iff_eq.mpr (rowXY _ x y _)

theorem xorReg (x y : Reg) : Statement (.xorReg x y) := by
  refine ⟨?_, ?_⟩
  · simp [Instr.wellFormed, Instr.fields, fitsX x, fitsY y]
  · exact beq_iff_eq.mpr (rowXY _ x y _)

theorem addReg (x y : Reg) : Statement (.addReg x y) := by
  refine ⟨?_, ?_⟩
  · simp [Instr.wellFormed, Instr.fields, fitsX x, fitsY y]
  · exact beq_iff_eq.mpr (rowXY _ x y _)

theorem subReg (x y : Reg) : Statement (.subReg x y) := by
  refine ⟨?_, ?_⟩
  · simp [Instr.wellFormed, Instr.fields, fitsX x, fitsY y]
  · exact beq_iff_eq.mpr (rowXY _ x y _)

theorem shr (x y : Reg) : Statement (.shr x y) := by
  refine ⟨?_, ?_⟩
  · simp [Instr.wellFormed, Instr.fields, fitsX x, fitsY y]
  · exact beq_iff_eq.mpr (rowXY _ x y _)

theorem subnReg (x y : Reg) : Statement (.subnReg x y) := by
  refine ⟨?_, ?_⟩
  · simp [Instr.wellFormed, Instr.fields, fitsX x, fitsY y]
  · exact beq_iff_eq.mpr (rowXY _ x y _)

theorem shl (x y : Reg) : Statement (.shl x y) := by
  refine ⟨?_, ?_⟩
  · simp [Instr.wellFormed, Instr.fields, fitsX x, fitsY y]
  · exact beq_iff_eq.mpr (rowXY _ x y _)

theorem sneReg (x y : Reg) : Statement (.sneReg x y) := by
  refine ⟨?_, ?_⟩
  · simp [Instr.wellFormed, Instr.fields, fitsX x, fitsY y]
  · exact beq_iff_eq.mpr (rowXY _ x y _)

theorem ldI (nnn : BitVec 12) : Statement (.ldI nnn) := by
  refine ⟨?_, ?_⟩
  · simp [Instr.wellFormed, Instr.fields, fitsNNN nnn]
  · exact beq_iff_eq.mpr (rowNNN _ nnn)

theorem jpV0 (nnn : BitVec 12) : Statement (.jpV0 nnn) := by
  refine ⟨?_, ?_⟩
  · simp [Instr.wellFormed, Instr.fields, fitsNNN nnn]
  · exact beq_iff_eq.mpr (rowNNN _ nnn)

theorem rnd (x : Reg) (nn : Byte) : Statement (.rnd x nn) := by
  refine ⟨?_, ?_⟩
  · simp [Instr.wellFormed, Instr.fields, fitsX x, fitsNN nn]
  · exact beq_iff_eq.mpr (rowXNN _ x nn)

theorem drw (x y : Reg) (n : BitVec 4) : Statement (.drw x y n) := by
  refine ⟨?_, ?_⟩
  · simp [Instr.wellFormed, Instr.fields, fitsX x, fitsY y, fitsN n]
  · exact beq_iff_eq.mpr (rowXYN _ x y n)

theorem skp (x : Reg) : Statement (.skp x) := by
  refine ⟨?_, ?_⟩
  · simp [Instr.wellFormed, Instr.fields, fitsX x]
  · exact beq_iff_eq.mpr (rowX _ x _)

theorem sknp (x : Reg) : Statement (.sknp x) := by
  refine ⟨?_, ?_⟩
  · simp [Instr.wellFormed, Instr.fields, fitsX x]
  · exact beq_iff_eq.mpr (rowX _ x _)

theorem ldVxDt (x : Reg) : Statement (.ldVxDt x) := by
  refine ⟨?_, ?_⟩
  · simp [Instr.wellFormed, Instr.fields, fitsX x]
  · exact beq_iff_eq.mpr (rowX _ x _)

theorem ldVxK (x : Reg) : Statement (.ldVxK x) := by
  refine ⟨?_, ?_⟩
  · simp [Instr.wellFormed, Instr.fields, fitsX x]
  · exact beq_iff_eq.mpr (rowX _ x _)

theorem ldDtVx (x : Reg) : Statement (.ldDtVx x) := by
  refine ⟨?_, ?_⟩
  · simp [Instr.wellFormed, Instr.fields, fitsX x]
  · exact beq_iff_eq.mpr (rowX _ x _)

theorem ldStVx (x : Reg) : Statement (.ldStVx x) := by
  refine ⟨?_, ?_⟩
  · simp [Instr.wellFormed, Instr.fields, fitsX x]
  · exact beq_iff_eq.mpr (rowX _ x _)

theorem addI (x : Reg) : Statement (.addI x) := by
  refine ⟨?_, ?_⟩
  · simp [Instr.wellFormed, Instr.fields, fitsX x]
  · exact beq_iff_eq.mpr (rowX _ x _)

theorem ldF (x : Reg) : Statement (.ldF x) := by
  refine ⟨?_, ?_⟩
  · simp [Instr.wellFormed, Instr.fields, fitsX x]
  · exact beq_iff_eq.mpr (rowX _ x _)

theorem ldB (x : Reg) : Statement (.ldB x) := by
  refine ⟨?_, ?_⟩
  · simp [Instr.wellFormed, Instr.fields, fitsX x]
  · exact beq_iff_eq.mpr (rowX _ x _)

theorem storeRegs (x : Reg) : Statement (.storeRegs x) := by
  refine ⟨?_, ?_⟩
  · simp [Instr.wellFormed, Instr.fields, fitsX x]
  · exact beq_iff_eq.mpr (rowX _ x _)

theorem loadRegs (x : Reg) : Statement (.loadRegs x) := by
  refine ⟨?_, ?_⟩
  · simp [Instr.wellFormed, Instr.fields, fitsX x]
  · exact beq_iff_eq.mpr (rowX _ x _)

end Sys2Proof.Laws.FitsRow
end

