-- ==== Sys2Proof/Laws/Run.lean ====
section
/-! SUPPORT. Runs of the machine behind the host's interface, one step at a time, and the step by the driver's next
command (spec/45_host_commands.md R179). -/

namespace Sys2Proof.Machine

/-- With no command of the driver listed, a step is EXECUTE (log 4). -/
theorem step_of_nil {s : State} (h : s.pending = []) : step s = executeCommand none s := by
  simp only [step, h]

/-- A step runs the driver's next command whole (R179). -/
theorem step_of_cons {s : State} {c : Command} {rest : List Command} (h : s.pending = c :: rest) :
    step s = command c { s with pending := rest } := by
  simp only [step, h]

theorem run_succ_of_next {s t : State} (n : Nat) (h : step s = .next t) :
    Host.Core.run core (n + 1) s = Host.Core.run core n t := by
  have h' : core.step s = .next t := h
  simp only [Host.Core.run, h']

theorem run_succ_of_fault {s : State} {f : Fault} (n : Nat) (h : step s = .fault f) :
    Host.Core.run core (n + 1) s = .fault f := by
  have h' : core.step s = .fault f := h
  simp only [Host.Core.run, h']

end Sys2Proof.Machine
end

