-- ==== Sys2Proof/Tests/Slice0.lean ====
section
/-! SUPPORT. The model's own tests: well-formedness, decoding, single steps, commands, and a witness for the hypotheses
of every statement. Expected values are those of spec/95_test_vectors.md (cited by vector), of the encodings of R65, or
worked out by hand from the cited rule. -/

namespace Sys2Proof.Tests

-- The tests are checked one after another: many kernel evaluations at once take a thread's memory each.
set_option Elab.async false

open Sys2Proof.Machine Sys2Proof.Claims

/-! ## Helpers -/

/-- The vectors' base state with a word at 0x200. -/
def base (w : Nat) : State := State.reset.withFetchWord 16 w

/-- Registers set. -/
def State.withV (s : State) (regs : List (Reg × Byte)) : State := regs.foldl (fun s p => s.setV p.1 p.2) s

/-- Bytes put into memory from an address upward. -/
def State.withBytes (s : State) (a : Nat) : List Byte → State
  | [] => s
  | b :: bs => State.withBytes (s.setMem a b) (a + 1) bs

/-- Keys pressed. -/
def State.withKeys (s : State) (ks : List Key) : State :=
  { s with keys := ks.foldl (fun l k => l.set k.val true) s.keys }

/-- Cells lit. -/
def State.withLit (s : State) (cells : List (Fin 2048)) : State :=
  { s with fb := cells.foldl (fun f k => f.set k.val true) s.fb }

/-- The state a result leaves. -/
def left (s : State) : Result → State
  | .next t => t
  | .fault f => f.after
  | .refused _ => s

/-- The state one step leaves. -/
def after (s : State) : State := left s (step s)

/-- The error of one step, none for ok. -/
def errorOf (s : State) : Option Error :=
  match step s with
  | .next _ => none
  | .fault f => some f.error
  | .refused _ => none

/-- The step goes on. -/
def goesOn (s : State) : Bool :=
  match step s with
  | .next _ => true
  | .fault _ => false
  | .refused _ => false

/-- The positions of the true entries of a list, counted from `k`. -/
def litFrom : Nat → List Bool → List Nat
  | _, [] => []
  | k, true :: bs => k :: litFrom (k + 1) bs
  | k, false :: bs => litFrom (k + 1) bs

/-- The lit cells, in order. -/
def lit (s : State) : List Nat := litFrom 0 s.fb.toList

/-! ## Well-formedness: an ill-formed term for each check -/

theorem test_wf_field_x : (fieldX 15).fits = true ∧ (fieldX 16).fits = false := by decide
theorem test_wf_field_y : (fieldY 15).fits = true ∧ (fieldY 16).fits = false := by decide
theorem test_wf_field_n : (fieldN 15).fits = true ∧ (fieldN 16).fits = false := by decide
theorem test_wf_field_nn : (fieldNN 255).fits = true ∧ (fieldNN 256).fits = false := by decide
theorem test_wf_field_nnn : (fieldNNN 4095).fits = true ∧ (fieldNNN 4096).fits = false := by decide

/-- One word of each class R66 rejects. -/
theorem test_wf_words_refused :
    wordWellFormed 0x0001 = false ∧ wordWellFormed 0x00E1 = false ∧ wordWellFormed 0x0100 = false ∧
    wordWellFormed 0x5121 = false ∧ wordWellFormed 0x8128 = false ∧ wordWellFormed 0x812F = false ∧
    wordWellFormed 0x9121 = false ∧ wordWellFormed 0xE19F = false ∧ wordWellFormed 0xF100 = false ∧
    wordWellFormed 0xFFFF = false := by decide +kernel

theorem test_wf_command_setkey :
    (Command.setKey 15 true).wellFormed = true ∧ (Command.setKey 16 true).wellFormed = false := by decide

theorem test_wf_command_load :
    (Command.load (List.replicate 3584 1)).wellFormed = true ∧
    (Command.load (List.replicate 3585 1)).wellFormed = false := by
  constructor <;> (rw [Command.wellFormed, List.length_replicate]; decide)

/-! ## Decoding: words written out from R65 -/

theorem test_decode_fixed :
    decodeWord 0b0000000000000000 = .ok .nop ∧ decodeWord 0b0000000011100000 = .ok .cls ∧
    decodeWord 0b0000000011101110 = .ok .ret := by decide +kernel

theorem test_decode_jumps :
    decodeWord 0b0001101010111100 = .ok (.jp 0xABC) ∧ decodeWord 0x2FFE = .ok (.call 0xFFE) ∧
    decodeWord 0xB301 = .ok (.jpV0 0x301) := by decide +kernel

theorem test_decode_skips :
    decodeWord 0b0011001101000010 = .ok (.seImm 3 0x42) ∧ decodeWord 0x4C80 = .ok (.sneImm 12 0x80) ∧
    decodeWord 0x5120 = .ok (.seReg 1 2) ∧ decodeWord 0x9F30 = .ok (.sneReg 15 3) := by decide +kernel

theorem test_decode_immediates :
    decodeWord 0b0110101000101111 = .ok (.ldImm 10 0x2F) ∧ decodeWord 0x7102 = .ok (.addImm 1 2) ∧
    decodeWord 0xC10F = .ok (.rnd 1 0x0F) := by decide +kernel

theorem test_decode_alu :
    decodeWord 0x8120 = .ok (.ldReg 1 2) ∧ decodeWord 0x8121 = .ok (.orReg 1 2) ∧
    decodeWord 0x8122 = .ok (.andReg 1 2) ∧ decodeWord 0x8123 = .ok (.xorReg 1 2) ∧
    decodeWord 0b1000000100100100 = .ok (.addReg 1 2) ∧ decodeWord 0x8125 = .ok (.subReg 1 2) ∧
    decodeWord 0x8126 = .ok (.shr 1 2) ∧ decodeWord 0x8127 = .ok (.subnReg 1 2) ∧
    decodeWord 0x812E = .ok (.shl 1 2) := by decide +kernel

theorem test_decode_index :
    decodeWord 0b1010001100000001 = .ok (.ldI 0x301) ∧ decodeWord 0xF21E = .ok (.addI 2) ∧
    decodeWord 0xF329 = .ok (.ldF 3) ∧ decodeWord 0xF533 = .ok (.ldB 5) ∧
    decodeWord 0xF255 = .ok (.storeRegs 2) ∧ decodeWord 0xF265 = .ok (.loadRegs 2) := by decide +kernel

theorem test_decode_display : decodeWord 0b1101000100100011 = .ok (.drw 1 2 3) := by decide +kernel

theorem test_decode_keys_timers :
    decodeWord 0b1110000110011110 = .ok (.skp 1) ∧ decodeWord 0xE2A1 = .ok (.sknp 2) ∧
    decodeWord 0xF307 = .ok (.ldVxDt 3) ∧ decodeWord 0xF40A = .ok (.ldVxK 4) ∧
    decodeWord 0xF515 = .ok (.ldDtVx 5) ∧ decodeWord 0xF618 = .ok (.ldStVx 6) := by decide +kernel

/-- V-ERR-1 to V-ERR-8, V-ERR-21 to V-ERR-23. -/
theorem test_decode_refuses :
    [0x0001, 0x00E1, 0x5121, 0x8128, 0x9121, 0xE19F, 0xF100, 0xFFFF, 0x0100, 0x8129, 0x812F].all
      (fun w => decide (decodeWord w = .error (.unknownOpcode w))) = true := by decide +kernel

/-- High byte first, and the rest of the bytes is left over (R60). -/
theorem test_decode_bytes :
    decode [0x1A, 0xBC, 0xFF] = .ok (.jp 0xABC, [0xFF]) ∧ decode [0x1A] = .error .truncated ∧
    decodeTableWord 16 0x1ABC = some (.jp 0xABC) ∧ decodeTableWord 16 0x5121 = none := by decide +kernel

/-! ## Single steps: control flow -/

/-- V-CF-1. -/
theorem test_nop : (after (base 0x0000)).pc = 0x202 ∧ goesOn (base 0x0000) = true := by decide +kernel

/-- V-CF-7. -/
theorem test_ret_pops_newest :
    let s := { base 0x00EE with sp := 16, stack := (State.reset.stack.set 15 0x0ABC).set 14 0x0111 }
    (after s).pc = 0xABC ∧ (after s).sp = 15 ∧ (after s).stack[15] = 0x0ABC := by decide +kernel

/-- V-ERR-10. -/
theorem test_ret_underflow :
    errorOf (base 0x00EE) = some .stackUnderflow ∧ (after (base 0x00EE)).pc = 0x202 := by decide +kernel

/-- V-CF-2, V-CF-4. -/
theorem test_jp : (after (base 0x1ABC)).pc = 0xABC ∧ errorOf (after (base 0x1FFF)) = some .memoryOutOfBounds := by
  decide +kernel

/-- V-CF-5, V-CF-8. -/
theorem test_call :
    (after (base 0x2300)).pc = 0x300 ∧ (after (base 0x2300)).stack[0] = 0x202 ∧ (after (base 0x2300)).sp = 1 ∧
    (after { base 0x2FFF with sp := 15 }).stack[15] = 0x202 ∧ (after { base 0x2FFF with sp := 15 }).sp = 16 := by
  decide +kernel

/-- V-ERR-11. -/
theorem test_call_overflow :
    let s := { base 0x2300 with sp := 16, stack := State.reset.stack.set 15 0x0222 }
    errorOf s = some .stackOverflow ∧ (after s).pc = 0x202 ∧ (after s).sp = 16 ∧ (after s).stack[15] = 0x0222 := by
  decide +kernel

/-- V-CF-9, V-CF-10. -/
theorem test_se_imm :
    (after (State.withV (base 0x3342) [(3, 0x42)])).pc = 0x204 ∧
    (after (State.withV (base 0x3343) [(3, 0x42)])).pc = 0x202 := by decide +kernel

/-- V-CF-11, V-CF-12. -/
theorem test_sne_imm :
    (after (State.withV (base 0x4342) [(3, 0x42)])).pc = 0x202 ∧
    (after (State.withV (base 0x4343) [(3, 0x42)])).pc = 0x204 := by decide +kernel

/-- V-CF-13, V-CF-14. -/
theorem test_se_reg :
    (after (State.withV (base 0x5120) [(1, 7), (2, 7)])).pc = 0x204 ∧
    (after (State.withV (base 0x5120) [(1, 7), (2, 8)])).pc = 0x202 := by decide +kernel

/-- V-CF-16, V-CF-17. -/
theorem test_sne_reg :
    (after (State.withV (base 0x9120) [(1, 7), (2, 8)])).pc = 0x204 ∧
    (after (State.withV (base 0x9120) [(1, 7), (2, 7)])).pc = 0x202 := by decide +kernel

/-- V-CF-21: the skipped word is not fetched. -/
theorem test_skip_at_top :
    let s := State.withBytes { State.reset with pc := 0xFFE } 0xFFE [0x30, 0x00]
    goesOn s = true ∧ (after s).pc = 0x1002 := by decide +kernel

/-- V-CF-19, V-CF-20. -/
theorem test_jp_v0 :
    (after (State.withV (base 0xB300) [(0, 4)])).pc = 0x304 ∧
    (after (State.withV (base 0xBFFF) [(0, 0xFF)])).pc = 0x10FE := by decide +kernel

/-! ## Single steps: registers and arithmetic -/

/-- V-ALU-1, V-ALU-4. -/
theorem test_loads :
    (after (base 0x6AFF)).getV 10 = 0xFF ∧ (after (State.withV (base 0x8120) [(2, 0x55)])).getV 1 = 0x55 := by
  decide +kernel

/-- V-ALU-2, V-ALU-3. -/
theorem test_add_imm :
    (let t := after (State.withV (base 0x7102) [(1, 0xFF), (15, 7)]); t.getV 1 = 1 ∧ t.getV 15 = 7) ∧
    (after (State.withV (base 0x7F01) [(15, 0xFF)])).getV 15 = 0 := by decide +kernel

/-- V-ALU-5, V-ALU-6, V-ALU-7. -/
theorem test_logic :
    (let t := after (State.withV (base 0x8121) [(1, 0xF0), (2, 0x0F), (15, 9)]); t.getV 1 = 0xFF ∧ t.getV 15 = 9) ∧
    (let t := after (State.withV (base 0x8122) [(1, 0xF0), (2, 0x3C), (15, 9)]); t.getV 1 = 0x30 ∧ t.getV 15 = 9) ∧
    (let t := after (State.withV (base 0x8123) [(1, 0xF0), (2, 0x3C), (15, 9)]); t.getV 1 = 0xCC ∧ t.getV 15 = 9) := by
  decide +kernel

/-- V-ALU-9, V-ALU-10. -/
theorem test_add_carry :
    (let t := after (State.withV (base 0x8124) [(1, 0xFF), (2, 1)]); t.getV 1 = 0 ∧ t.getV 15 = 1) ∧
    (let t := after (State.withV (base 0x8124) [(1, 0x80), (2, 0x7F), (15, 1)]); t.getV 1 = 0xFF ∧ t.getV 15 = 0) := by
  decide +kernel

/-- V-ALU-26, V-ALU-27: VF as destination and as source. -/
theorem test_add_vf :
    (after (State.withV (base 0x8F14) [(15, 0xF0), (1, 0x20)])).getV 15 = 1 ∧
    (let t := after (State.withV (base 0x81F4) [(1, 0xFF), (15, 2)]); t.getV 1 = 1 ∧ t.getV 15 = 1) := by
  decide +kernel

/-- V-ALU-12, V-ALU-13. -/
theorem test_sub :
    (let t := after (State.withV (base 0x8125) [(1, 0x10), (2, 0x10)]); t.getV 1 = 0 ∧ t.getV 15 = 1) ∧
    (let t := after (State.withV (base 0x8125) [(1, 0x10), (2, 0x30), (15, 1)]); t.getV 1 = 0xE0 ∧ t.getV 15 = 0) := by
  decide +kernel

/-- V-ALU-23, V-ALU-24. -/
theorem test_subn :
    (let t := after (State.withV (base 0x8127) [(1, 0x10), (2, 0x30)]); t.getV 1 = 0x20 ∧ t.getV 15 = 1) ∧
    (let t := after (State.withV (base 0x8127) [(1, 0x30), (2, 0x10), (15, 1)]); t.getV 1 = 0xE0 ∧ t.getV 15 = 0) := by
  decide +kernel

/-- V-ALU-15, V-ALU-17. -/
theorem test_shr :
    (let t := after (State.withV (base 0x8126) [(1, 5), (2, 0xFF)]); t.getV 1 = 2 ∧ t.getV 15 = 1) ∧
    (after (State.withV (base 0x8F26) [(15, 6)])).getV 15 = 0 := by decide +kernel

/-- V-ALU-19, V-ALU-21. -/
theorem test_shl :
    (let t := after (State.withV (base 0x812E) [(1, 0x81)]); t.getV 1 = 2 ∧ t.getV 15 = 1) ∧
    (after (State.withV (base 0x8F2E) [(15, 0x41)])).getV 15 = 0 := by decide +kernel

/-- V-ALU-32, V-ALU-33. -/
theorem test_rnd :
    (after { base 0xC10F with pending := [.execute 0xA7] }).getV 1 = 7 ∧
    (after { State.withV (base 0xC100) [(1, 0x55)] with pending := [.execute 0xFF] }).getV 1 = 0 := by decide +kernel

/-! ## Single steps: index register and memory -/

/-- V-IDX-2. -/
theorem test_ld_i : (after { base 0xAFFF with i := 0xFFFF }).i = 0x0FFF := by decide +kernel

/-- V-IDX-4, V-IDX-5. -/
theorem test_add_i :
    (let t := after { State.withV (base 0xF21E) [(2, 1), (15, 9)] with i := 0x0FFF }; t.i = 0x1000 ∧ t.getV 15 = 9) ∧
    (after { State.withV (base 0xF21E) [(2, 2)] with i := 0xFFFF }).i = 1 := by decide +kernel

/-- V-IDX-6, V-IDX-7. -/
theorem test_ld_f :
    (after (State.withV (base 0xF029) [(0, 0x0A)])).i = 0x32 ∧
    (after (State.withV (base 0xF029) [(0, 0xFF)])).i = 0x4FB := by decide +kernel

/-- V-IDX-9. -/
theorem test_bcd :
    let t := after { State.withV (base 0xF033) [(0, 234)] with i := 0x300 }
    t.readMem 0x300 = some 2 ∧ t.readMem 0x301 = some 3 ∧ t.readMem 0x302 = some 4 ∧ t.i = 0x300 := by decide +kernel

/-- V-ERR-15. -/
theorem test_bcd_out_of_bounds :
    let s := { State.withV (base 0xF033) [(0, 234)] with i := 0xFFE }
    errorOf s = some .memoryOutOfBounds ∧ (after s).readMem 0xFFE = some 2 ∧ (after s).readMem 0xFFF = some 3 ∧
      (after s).readMem 0 = some 0xF0 := by decide +kernel

/-- V-IDX-13. -/
theorem test_store_regs :
    let t := after { State.withV (base 0xF255) [(0, 0x11), (1, 0x22), (2, 0x33), (3, 0x44)] with i := 0x400 }
    t.readMem 0x400 = some 0x11 ∧ t.readMem 0x402 = some 0x33 ∧ t.readMem 0x403 = some 0 ∧ t.i = 0x400 := by
  decide +kernel

/-- V-ERR-17. -/
theorem test_store_regs_out_of_bounds :
    let s := { State.withV (base 0xF255) [(0, 1), (1, 2), (2, 3)] with i := 0xFFE }
    errorOf s = some .memoryOutOfBounds ∧ (after s).readMem 0xFFF = some 2 := by decide +kernel

/-- FX65 reads V0 to VX from ascending addresses (R125). -/
theorem test_load_regs :
    let t := after (State.withBytes { State.withV (base 0xF165) [(2, 0x77)] with i := 0x300 } 0x300 [5, 6, 7])
    t.getV 0 = 5 ∧ t.getV 1 = 6 ∧ t.getV 2 = 0x77 ∧ t.i = 0x300 := by decide +kernel

/-- V-ERR-18. -/
theorem test_load_regs_out_of_bounds :
    let s := State.withBytes { State.withV (base 0xF265) [(2, 0x77)] with i := 0xFFE } 0xFFE [0x55, 0x66]
    errorOf s = some .memoryOutOfBounds ∧ (after s).getV 0 = 0x55 ∧ (after s).getV 1 = 0x66 ∧
      (after s).getV 2 = 0x77 := by decide +kernel

/-- A write back to the reset content takes the entry out of the list (log 20). -/
theorem test_memory_canonical :
    ((Memory.write [] 3 7).write 1 5).write 3 0x90 = [(1, 5)] ∧ Memory.unlisted 3 = 0x90 ∧
    Memory.wf [(1, 5), (3, 7)] = true ∧ Memory.wf [(3, 7), (1, 5)] = false ∧ Memory.wf [(3, 0x90)] = false ∧
    Memory.wf [(4096, 1)] = false := by decide +kernel

/-! ## Single steps: display -/

/-- CLS clears every cell and leaves VF (R140). -/
theorem test_cls :
    let t := after (State.withLit (State.withV (base 0x00E0) [(15, 7)]) [0, 2047])
    lit t = [] ∧ t.getV 15 = 7 := by decide +kernel

/-- Program P3, the first draw: both axes wrap. -/
theorem test_drw_wraps :
    let s := State.withBytes { State.withV (base 0xD012) [(0, 60), (1, 31)] with i := 0x20C } 0x20C [0xFF, 0x81]
    lit (after s) = [3, 60, 1984, 1985, 1986, 1987, 2044, 2045, 2046, 2047] ∧ (after s).getV 15 = 0 := by
  decide +kernel

/-- V-DSP-8: a lit cell collides and is erased. -/
theorem test_drw_collides :
    let s := State.withLit (State.withBytes { base 0xD011 with i := 0x300 } 0x300 [0xA0]) [1, 2]
    lit (after s) = [0, 1] ∧ (after s).getV 15 = 1 := by decide +kernel

/-- V-ERR-19: the first row stays drawn, VF is not written. -/
theorem test_drw_out_of_bounds :
    let s := State.withBytes { State.withV (base 0xD012) [(15, 7)] with i := 0xFFF } 0xFFF [0x80]
    errorOf s = some .memoryOutOfBounds ∧ lit (after s) = [0] ∧ (after s).getV 15 = 7 := by decide +kernel

/-! ## Single steps: keypad and timers -/

/-- V-KT-5, V-KT-6. -/
theorem test_skp :
    (after (State.withKeys (State.withV (base 0xE29E) [(2, 15)]) [15])).pc = 0x204 ∧
    errorOf (State.withKeys (State.withV (base 0xE29E) [(2, 16)]) [0]) = some .invalidKeyIndex := by decide +kernel

/-- V-KT-3, V-KT-4. -/
theorem test_sknp :
    (after (State.withKeys (State.withV (base 0xE2A1) [(2, 3)]) [3])).pc = 0x202 ∧
    (after (State.withV (base 0xE2A1) [(2, 3)])).pc = 0x204 := by decide +kernel

/-- V-KT-8, V-KT-15, V-KT-10. -/
theorem test_timers_moved :
    (after { base 0xF307 with dt := 42 }).getV 3 = 42 ∧
    (let t := after { base 0xF315 with dt := 5, st := 6 }; t.dt = 0 ∧ t.st = 6) ∧
    (after (State.withV (base 0xF318) [(3, 42)])).st = 42 := by decide +kernel

/-- V-KT-13. -/
theorem test_key_wait_lowest :
    let t := after (State.withKeys (State.withV (base 0xF40A) [(4, 0x99)]) [2, 7, 15])
    t.getV 4 = 2 ∧ t.pc = 0x202 := by decide +kernel

/-- V-KT-11. -/
theorem test_key_wait_none :
    let s := State.withV (base 0xF40A) [(4, 0x99)]
    goesOn s = true ∧ (after s).pc = 0x200 ∧ (after s).getV 4 = 0x99 := by decide +kernel

/-! ## Commands -/

/-- V-HOST-1, in part: an overwritten font byte is restored, the program is erased. -/
theorem test_reset :
    let s := State.withBytes { State.reset with pc := 0x456, sp := 3, st := 1, pending := [.reset] } 0x300 [0x55]
    let t := after (s.setMem 3 0xAA)
    t.pc = 0x200 ∧ t.sp = 0 ∧ t.readMem 3 = some 0x90 ∧ t.readMem 0x300 = some 0 ∧ t.st = 0 := by decide +kernel

/-- V-HOST-6. -/
theorem test_load :
    let t := after { State.withV State.reset [(1, 5)] with pc := 0x300, pending := [.load [0x00, 0xE0]] }
    t.readMem 0x200 = some 0 ∧ t.readMem 0x201 = some 0xE0 ∧ t.pc = 0x300 ∧ t.getV 1 = 5 := by decide +kernel

/-- V-HOST-8, V-HOST-10, V-HOST-11. -/
theorem test_tick :
    (runCommands [.tick, .tick, .tick] { State.reset with dt := 3, st := 1 }).1 = [.tone true, .tone false, .tone false] ∧
    (runCommands [.tick, .tick] { State.reset with st := 2 }).1 = [.tone false, .tone true] ∧
    (after { State.reset with dt := 255, st := 255, pending := [.tick] }).dt = 254 := by decide +kernel

/-- V-HOST-12. -/
theorem test_set_key :
    (runCommands [.setKey 3 true, .setKey 16 true, .setKey 255 false] State.reset).1 =
      [.ok, .error .invalidKeyIndex, .error .invalidKeyIndex] ∧
    (after { State.reset with pending := [.setKey 3 true] }).keys[3] = true := by decide +kernel

/-- V-HOST-16: the core stays usable after an error. -/
theorem test_goes_on_after_error :
    let r := runCommands [.execute 0, .execute 0] (State.withBytes State.reset 0x200 [0x00, 0x01, 0x6A, 0x05])
    r.1 = [.error .unknownOpcode, .ok] ∧ r.2.getV 10 = 5 ∧ r.2.pc = 0x204 := by decide +kernel

/-- V-ERR-12, V-ERR-13, V-ERR-14. -/
theorem test_fetch_bounds :
    errorOf { State.reset with pc := 0xFFF } = some .memoryOutOfBounds ∧
    (after { State.reset with pc := 0xFFF }).pc = 0xFFF ∧
    errorOf { State.reset with pc := 0x1000 } = some .memoryOutOfBounds ∧
    goesOn { State.reset with pc := 0xFFE } = true ∧ (after { State.reset with pc := 0xFFE }).pc = 0x1000 := by
  decide +kernel

/-- The default numbers of R190. -/
theorem test_error_codes :
    [Error.unknownOpcode, .stackOverflow, .stackUnderflow, .memoryOutOfBounds, .invalidKeyIndex, .oversizedLoad].map
      Error.code = [1, 2, 3, 4, 5, 6] := by decide

/-- V-HOST-5, with an image of equal bytes: the bytes in bounds are stored (R196; D16). -/
theorem test_load_oversized :
    ∃ t, command (.load (List.replicate 3585 7)) State.reset = .fault (.oversizedLoad t) ∧ t.readMem 0xFFF = some 7 := by
  obtain ⟨m, h, _, hm⟩ := storeBytes_spec .oversizedLoad (List.replicate 3585 7) 0x200 State.reset
  refine ⟨{ State.reset with mem := m }, ?_, ?_⟩
  · show storeBytes .oversizedLoad (List.replicate 3585 7) 0x200 State.reset = _
    have hne : List.replicate 3585 (7 : Byte) ≠ [] := by rw [Ne, List.replicate_eq_nil_iff]; decide
    have hlen : ¬ 0x200 + (List.replicate 3585 (7 : Byte)).length ≤ 4096 := by rw [List.length_replicate]; decide
    rw [h, if_neg (not_or.mpr ⟨hne, hlen⟩)]
    rfl
  · rw [State.readMem_of_lt _ (by decide)]
    show some (m.read 0xFFF) = _
    rw [hm, List.getElem?_replicate]
    rfl

/-- V-HOST-14, on a screen with two lit cells: the view is row-major and reading changes nothing (R176). -/
theorem test_readfb :
    let s := State.withLit State.reset [0, 380]
    (match response .readFb s with
      | .view fb => litFrom 0 fb.toList
      | _ => []) = [0, 380] ∧ lit (left s (command .readFb s)) = [0, 380] := by decide +kernel

/-! ## Witnesses: states and operands that meet the hypotheses of the statements, clause by clause -/

/-- EncodeOfDecode, DecodeFollowsOpcodeMap: a word that decodes, and its row accepts it. -/
theorem witness_word_decodes :
    decodeWord 0xD123 = .ok (.drw 1 2 3) ∧ Instr.row (.drw 1 2 3) ∈ opRows ∧
    (Instr.row (.drw 1 2 3)).accepts 0xD123 = true := by decide +kernel

/-- StepRunsTheDecodedInstruction, both clauses; ExecuteFetchesThenDecodes: `PC` at its last fetchable value. -/
theorem witness_step_runs_decoded :
    let s := State.withBytes { State.reset with pc := 0xFFE } 0xFFE [0x6A, 0x05]
    let u := { s with pending := [.execute 9, .tick] }
    FetchesInstr s (.ldImm 10 5) ∧ s.pending = [] ∧ s.pc.toNat ≤ 4094 ∧
    FetchesInstr u (.ldImm 10 5) ∧ u.pending = .execute 9 :: [.tick] :=
  ⟨⟨0x6A, 0x05, by decide +kernel, by decide +kernel, by decide +kernel⟩, rfl, by decide,
   ⟨0x6A, 0x05, by decide +kernel, by decide +kernel, by decide +kernel⟩, rfl⟩

/-- ExecuteFetchesThenDecodes, FetchErrorRepeats: `PC` at the first value that cannot be fetched at. -/
theorem witness_no_fetch : 4095 ≤ ({ State.reset with pc := 0xFFF } : State).pc.toNat := by decide

/-- ExecuteFetchesThenDecodes, UnmatchedWordIsUnknownOpcode: bytes at `PC` that no row accepts and that do not decode. -/
theorem witness_unmatched_word :
    (base 0x5121).readMem (base 0x5121).pc.toNat = some 0x51 ∧
    (base 0x5121).readMem ((base 0x5121).pc.toNat + 1) = some 0x21 ∧
    (∀ r ∈ opRows, r.accepts (BitVec.ofNat 16 (256 * (0x51 : Byte).toNat + (0x21 : Byte).toNat)) = false) ∧
    (∀ i, decodeWord (BitVec.ofNat 16 (256 * (0x51 : Byte).toNat + (0x21 : Byte).toNat)) ≠ .ok i) := by
  refine ⟨by decide +kernel, by decide +kernel, by decide +kernel, fun i h => ?_⟩
  have e : decodeWord (BitVec.ofNat 16 (256 * (0x51 : Byte).toNat + (0x21 : Byte).toNat)) =
      .error (.unknownOpcode 0x5121) := by decide +kernel
  rw [e] at h
  exact nomatch h

/-- A state that meets the invariant with a used stack slot and a listed byte of memory. -/
def lively : State :=
  { State.reset with pc := 0x10FE, sp := 16, stack := State.reset.stack.set 15 0x1000, mem := [(0xFFF, 1)] }

/-- StepKeepsTheInvariant: the invariant at the boundaries of its ranges; the step there is a fault (no fetch). -/
theorem witness_invariant_fault : lively.Inv ∧ ∃ f, step lively = .fault f := by
  refine ⟨⟨by unfold State.pcInRange; decide, ?_, by decide⟩, _, rfl⟩
  unfold State.stackInRange
  decide +kernel

/-- StepKeepsTheInvariant: the invariant where the step goes on. -/
theorem witness_invariant_next : State.reset.Inv ∧ ∃ t, step State.reset = .next t :=
  ⟨⟨by unfold State.pcInRange; decide, fun k h => absurd h (Nat.not_lt_zero k.val), rfl⟩, _, rfl⟩

/-- CanonicalMemoriesThatReadAlikeAreEqual: two canonical memories, written in two orders, that read alike. -/
theorem witness_memories_read_alike :
    let m := (Memory.write [] 0x300 1).write 0x200 2
    let m' := (Memory.write [] 0x200 2).write 0x300 1
    m.wf = true ∧ m'.wf = true ∧ ∀ a, a < 4096 → m.read a = m'.read a := by
  refine ⟨by decide +kernel, by decide +kernel, fun a _ => ?_⟩
  simp only [Memory.read_write]
  split <;> split <;> first | rfl | omega

/-- InstructionsWriteOnlyWhatTheyList, FlagIsZeroOrOneAndWrittenByFlagInstructionsOnly: an instruction that ends well,
with a register and VF that it does not list; and the flag instructions, arithmetic and draw, end well. -/
theorem witness_instruction_next :
    (∃ t, exec (.ldImm 3 7) State.reset = .next t) ∧ regsWritten (.ldImm 3 7) 4 = false ∧
    regsWritten (.ldImm 3 7) 15 = false ∧ (∃ t, exec (.addReg 1 2) State.reset = .next t) ∧
    (∃ t, exec (.shl 15 2) State.reset = .next t) ∧ ∃ t, exec (.drw 1 2 0) State.reset = .next t :=
  ⟨⟨_, rfl⟩, rfl, rfl, ⟨_, rfl⟩, ⟨_, rfl⟩, ⟨_, rfl⟩⟩

/-- InstructionsWriteOnlyWhatTheyList, InstructionsRaiseOnlyTheirErrors: an instruction that ends with an error. -/
theorem witness_instruction_fault : ∃ f, exec .ret State.reset = .fault f := ⟨_, rfl⟩

/-- InstructionsWriteOnlyWhatTheyList: the addresses on both sides of FX55's bytes, FX33's three bytes and no byte for
another instruction; another slot than the one CALL writes, with 15 used. -/
theorem witness_bytes_and_slots :
    (∀ k, k < bytesWritten (.storeRegs 2) → 0x2FF ≠ ({ State.reset with i := 0x300 } : State).effAddr k) ∧
    (∀ k, k < bytesWritten (.storeRegs 2) → 0x303 ≠ ({ State.reset with i := 0x300 } : State).effAddr k) ∧
    bytesWritten (.ldB 7) = 3 ∧ bytesWritten (.ldI 0x300) = 0 ∧
    (14 : Fin 16).val ≠ ({ State.reset with sp := 15 } : State).sp.val ∧
    ∃ t, exec (.call 0x300) { State.reset with sp := 15 } = .next t :=
  ⟨by decide +kernel, by decide +kernel, rfl, rfl, by decide, _, rfl⟩

/-- InstructionsWriteOnlyWhatTheyList: a draw that fails in its second row, and a cell that its first row, the byte 0x80
at address 0xFFF, does not cover. -/
theorem witness_uncovered_cell :
    let s := State.withBytes { State.reset with i := 0xFFF } 0xFFF [0x80]
    (∃ f, exec (.drw 0 1 2) s = .fault f) ∧
    ¬ SpriteCovers s (s.getV 0) (s.getV 1) (min (2 : BitVec 4).toNat (4096 - s.i.toNat)) 1 := by
  refine ⟨⟨_, rfl⟩, ?_⟩
  rintro ⟨r, c, hr, hc, hbit, hcell⟩
  obtain rfl : r = 0 := by
    have : min (2 : BitVec 4).toNat (4096 - (0xFFF : Half).toNat) = 1 := by decide
    exact Nat.lt_one_iff.mp (this ▸ hr)
  have hall : ∀ c, c < 8 → (0x80 : Byte).getLsbD (7 - c) = true → c = 0 := by decide
  have hc0 := hall c hc hbit
  subst hc0
  exact absurd hcell (by decide +kernel)

/-- ExecuteNeverCountsTheTimers: EXECUTE ends well at a word that is neither FX15 nor FX18, and with an error. -/
theorem witness_execute_without_timers :
    (∃ t, command (.execute 0) (base 0x6A05) = .next t) ∧
    (∀ x, ¬ FetchesInstr (base 0x6A05) (.ldDtVx x)) ∧ (∀ x, ¬ FetchesInstr (base 0x6A05) (.ldStVx x)) ∧
    ∃ f, command (.execute 0) (base 0x0001) = .fault f := by
  have h : ∀ i, FetchesInstr (base 0x6A05) i → i = .ldImm 10 5 := by
    rintro i ⟨hi, lo, h1, h2, h3⟩
    have e1 : (base 0x6A05).readMem (base 0x6A05).pc.toNat = some 0x6A := by decide +kernel
    have e2 : (base 0x6A05).readMem ((base 0x6A05).pc.toNat + 1) = some 0x05 := by decide +kernel
    have e3 : decodeWord (BitVec.ofNat 16 (256 * (0x6A : Byte).toNat + (0x05 : Byte).toNat)) = .ok (.ldImm 10 5) := by
      decide +kernel
    rw [e1] at h1
    rw [e2] at h2
    cases h1
    cases h2
    rw [e3] at h3
    cases h3
    rfl
  refine ⟨⟨_, rfl⟩, fun x hx => ?_, fun x hx => ?_, _, rfl⟩
  · exact nomatch h _ hx
  · exact nomatch h _ hx

/-- RetPopsTheNewestSlot: one used slot, all used, none. -/
theorem witness_ret :
    ({ State.reset with sp := 1 } : State).sp.val = (0 : Fin 16).val + 1 ∧
    ({ State.reset with sp := 16 } : State).sp.val = (15 : Fin 16).val + 1 ∧ State.reset.sp.val = 0 := by decide

/-- CallPushesAndJumps: no used slot, 15, all used; another slot than the one written. -/
theorem witness_call :
    State.reset.sp.val = (0 : Fin 16).val ∧ ({ State.reset with sp := 15 } : State).sp.val = (15 : Fin 16).val ∧
    ({ State.reset with sp := 16 } : State).sp.val = 16 ∧ (14 : Fin 16) ≠ 15 := by decide

/-- NopChangesNothing: a word between the three defined ones. JumpSetsPc: the address 0xFFF, and a jump to its own
address after its fetch. SkipsFollowTheirConditions: the last nibbles 1 and 15. JumpV0AddsWithoutMask: the least sum that
cannot be fetched at. -/
theorem witness_jumps :
    (0xEF < 0x1000 ∧ 0xEF ≠ 0 ∧ 0xEF ≠ 0xE0 ∧ 0xEF ≠ 0xEE) ∧ (0xFFF : BitVec 12).toNat = 0xFFF ∧
    ((base 0x1200).enter none).pc.toNat = (0x200 : BitVec 12).toNat + 2 ∧ (1 ≤ 1 ∧ 15 ≤ 15) ∧
    4095 ≤ (State.reset.getV 0).toNat + (0xFFF : BitVec 12).toNat := by decide +kernel

/-- SelfJumpIsStable: V-CF-3. -/
theorem witness_self_jump : (base 0x1200).atSelfJump ∧ (base 0x1200).pending = [] :=
  ⟨⟨0x12, 0x00, by decide +kernel, by decide +kernel⟩, rfl⟩

/-- CallThenRetComesBack: V-SEQ-1, with 15 slots used. -/
theorem witness_call_then_ret :
    let s := State.withBytes { base 0x2204 with sp := 15 } 0x204 [0x00, 0xEE]
    s.pending = [] ∧ s.sp.val < 16 ∧ FetchesInstr s (.call 0x204) ∧
    ∃ hi lo, s.readMem (0x204 : BitVec 12).toNat = some hi ∧ s.readMem ((0x204 : BitVec 12).toNat + 1) = some lo ∧
      hi = 0x00 ∧ lo = 0xEE :=
  ⟨rfl, by decide +kernel, ⟨0x22, 0x04, by decide +kernel, by decide +kernel, by decide +kernel⟩,
   0x00, 0xEE, by decide +kernel, by decide +kernel, rfl, rfl⟩

/-- AddSetsCarry, SubtractionsSetNotBorrow, ShiftsSetTheDroppedBit, DrawTwiceRestoresTheScreen: a register that is not
VF, at either end. RandomIsMasked: a run that names its random byte, and a bit outside a mask. -/
theorem witness_registers_and_random :
    (0 : Reg) ≠ 15 ∧ (14 : Reg) ≠ 15 ∧ ({ State.reset with rnd := some 0xA7 } : State).rnd = some 0xA7 ∧
    (0x0F : Byte).getLsbD 4 = false := by decide

/-- BcdStoresThreeDigits: the last base address that succeeds and the first that fails, with its digits in bounds and
out of it, and addresses on both sides of the stored bytes. -/
theorem witness_bcd :
    (∀ s : State, s = { State.reset with i := 0xFFD } →
      s.i.toNat + 2 ≤ 4095 ∧ s.i.toNat + 1 ≤ 4095 ∧ s.i.toNat ≤ 4095 ∧ 0xFFC < s.i.toNat ∧ s.i.toNat + 2 < 0x1000) ∧
    ∀ s : State, s = { State.reset with i := 0xFFE } → 4096 ≤ s.i.toNat + 2 ∧ s.i.toNat + 1 ≤ 4095 :=
  ⟨fun _ h => h ▸ by decide, fun _ h => h ▸ by decide⟩

/-- StoreRegistersWritesEachByte, LoadRegistersReadsEachByte: the last base address that succeeds and the first that
fails with `X` = 2, with a register in bounds and one out of it, a register above `X`, and an address on each side. -/
theorem witness_store_load :
    (∀ s : State, s = { State.reset with i := 0xFFD } →
      s.i.toNat + (2 : Reg).val ≤ 4095 ∧ 0xFFC < s.i.toNat ∧ s.i.toNat + (2 : Reg).val < 0x1000 ∧
        ((2 : Reg) ≤ 2 ∧ s.i.toNat + (2 : Reg).val ≤ 4095) ∧ (2 : Reg) < 3) ∧
    ∀ s : State, s = { State.reset with i := 0xFFE } →
      4096 ≤ s.i.toNat + (2 : Reg).val ∧ ((1 : Reg) ≤ 2 ∧ s.i.toNat + (1 : Reg).val ≤ 4095) ∧
        ((2 : Reg) ≤ 2 ∧ 4096 ≤ s.i.toNat + (2 : Reg).val) :=
  ⟨fun _ h => h ▸ by decide, fun _ h => h ▸ by decide⟩

/-- StoreThenLoadRestoresTheRegisters: a store that succeeds, then other values in the registers. -/
theorem witness_store_then_load :
    ∃ s t u : State, exec (.storeRegs 1) s = .next t ∧ u.i = t.i ∧ u.mem = t.mem ∧ u.getV 0 ≠ t.getV 0 :=
  ⟨State.withV { State.reset with i := 0x300 } [(0, 1), (1, 2)], _, State.withV
    (left State.reset (exec (.storeRegs 1) (State.withV { State.reset with i := 0x300 } [(0, 1), (1, 2)]))) [(0, 9)],
   rfl, rfl, rfl, by decide +kernel⟩

/-- StoresAreSeenByTheNextFetch, FX33: the last two digits fall on the last word that can be fetched. -/
theorem witness_bcd_over_fetch :
    ∃ s t : State, s.pc.toNat ≤ 4094 ∧ exec (.ldB 0) s = .next t ∧ s.pc.toNat = s.i.toNat + 1 ∧
      s.pc.toNat + 1 = s.i.toNat + 2 :=
  ⟨State.withV { State.reset with i := 0xFFD, pc := 0xFFE } [(0, 234)], _, by decide +kernel, rfl, by decide +kernel, by
    decide +kernel⟩

/-- StoresAreSeenByTheNextFetch, FX55: V0 falls on the second byte of the word at `PC` only. -/
theorem witness_store_over_fetch :
    ∃ s t : State, s.pc.toNat ≤ 4094 ∧ exec (.storeRegs 0) s = .next t ∧ (0 : Reg) ≤ 0 ∧
      s.pc.toNat + 1 = s.i.toNat + (0 : Reg).val :=
  ⟨State.withV { State.reset with i := 0xFFF, pc := 0xFFE } [(0, 0x12)], _, by decide +kernel, rfl, by decide, by
    decide +kernel⟩

/-- StoresAreSeenByTheNextFetch, LOAD: an image over the word at `PC`. -/
theorem witness_load_over_fetch :
    ∃ s t : State, s.pc.toNat ≤ 4094 ∧ command (.load [0x12, 0x34]) s = .next t ∧ s.pc.toNat = 0x200 + 0 ∧
      ([0x12, 0x34] : List Byte)[0]? = some 0x12 ∧ s.pc.toNat + 1 = 0x200 + 1 ∧
      ([0x12, 0x34] : List Byte)[1]? = some 0x34 :=
  ⟨State.reset, _, by decide, rfl, by decide, rfl, by decide, rfl⟩

/-- DrawTogglesTheSpriteCells, DrawTwiceRestoresTheScreen: no rows with `I` out of range, and a sprite that ends at the
last byte. DrawPastMemoryKeepsTheEarlierRows: one row more. -/
theorem witness_draw :
    ((0 : BitVec 4).toNat = 0) ∧
    (∀ s : State, s = { State.reset with i := 0xFFE } →
      s.i.toNat + (2 : BitVec 4).toNat ≤ 4096 ∧ (3 : BitVec 4).toNat ≠ 0 ∧ 4096 < s.i.toNat + (3 : BitVec 4).toNat) :=
  ⟨rfl, fun _ h => h ▸ by decide⟩

/-- KeySkipsReadTheLatch, SetKeySetsOneLatch: the last key number and the first index that is none. -/
theorem witness_key_number :
    ((State.withV State.reset [(2, 15)]).getV 2).toNat = (15 : Key).val ∧
    16 ≤ ((State.withV State.reset [(2, 16)]).getV 2).toNat ∧ (15 : Byte).toNat = (15 : Key).val ∧
    16 ≤ (16 : Byte).toNat ∧ (14 : Key) ≠ 15 := by decide +kernel

/-- KeyWaitTakesTheLowestKey: keys 2 and 15 pressed, and none. KeyWaitRepeatsUnchanged: V-KT-11. -/
theorem witness_key_wait :
    (State.withKeys State.reset [2, 15]).keys[(2 : Key).val] = true ∧
    (∀ j : Key, j < 2 → (State.withKeys State.reset [2, 15]).keys[j.val] = false) ∧
    (base 0xF40A).pending = [] ∧ FetchesInstr (base 0xF40A) (.ldVxK 4) ∧
    ∀ k : Key, (base 0xF40A).keys[k.val] = false :=
  ⟨by decide +kernel, by decide +kernel, rfl,
   ⟨0xF4, 0x0A, by decide +kernel, by decide +kernel, by decide +kernel⟩, by decide +kernel⟩

/-- LoadCopiesTheImage: the longest image that fits and the shortest that does not, and a byte of each. -/
theorem witness_load :
    (List.replicate 3584 (7 : Byte)).length ≤ 3584 ∧ 3584 < (List.replicate 3585 (7 : Byte)).length ∧
    (List.replicate 3584 (7 : Byte))[3583]? = some 7 := by
  refine ⟨?_, ?_, ?_⟩
  · rw [List.length_replicate]
  · rw [List.length_replicate]; decide
  · rw [List.getElem?_replicate]; rfl

/-- ResetRestoresEveryPiece: its bounds on an address. -/
theorem witness_reset_addresses : 79 < 80 ∧ 80 ≤ 80 ∧ 80 < 4096 ∧ 4095 < 4096 := by decide

/-- StepRunsTheNextCommand: a command is listed. -/
theorem witness_pending :
    ({ State.reset with pending := [.setKey 16 true, .tick] } : State).pending = .setKey 16 true :: [.tick] := rfl

/-- ExecuteGoesOnAfterUnknownOpcode: V-HOST-16. -/
theorem witness_unknown_then_known :
    let s := State.withBytes State.reset 0x200 [0x00, 0x01, 0x6A, 0x05]
    let t := s.enter (some 0)
    command (.execute 0) s = .fault (.unknownOpcode t) ∧ FetchesInstr t (.ldImm 10 5) := by
  refine ⟨?_, 0x6A, 0x05, by decide +kernel, by decide +kernel, by decide +kernel⟩
  exact executeCommand_of_error (s := State.withBytes State.reset 0x200 [0x00, 0x01, 0x6A, 0x05]) (hi := 0x00)
    (lo := 0x01) (e := .unknownOpcode 0x0001) _ (by decide +kernel) (by decide +kernel)

/-- SoundTimerIsSet: FX18 stands at `PC`. -/
theorem witness_sound_timer : FetchesInstr (base 0xF318) (.ldStVx 3) :=
  ⟨0xF3, 0x18, by decide +kernel, by decide +kernel, by decide +kernel⟩

/-- ExecuteAnswersOkOrTheErrorRaised: an instruction at `PC` that goes on, and one that ends with an error. -/
theorem witness_execute_answers :
    FetchesInstr (base 0x6A05) (.ldImm 10 5) ∧ (∃ t, exec (.ldImm 10 5) ((base 0x6A05).enter (some 0)) = .next t) ∧
    FetchesInstr (base 0x00EE) .ret ∧ ∃ f, exec .ret ((base 0x00EE).enter (some 0)) = .fault f :=
  ⟨⟨0x6A, 0x05, by decide +kernel, by decide +kernel, by decide +kernel⟩, ⟨_, rfl⟩,
   ⟨0x00, 0xEE, by decide +kernel, by decide +kernel, by decide +kernel⟩, _, rfl⟩

end Sys2Proof.Tests
end

section
/-! SUPPORT. What the statements about single instructions share: the word of an instruction decodes to it, the frames of
the operations that move `PC`, and EXECUTE where no word can be fetched. -/

namespace Sys2Proof.Claims

open Sys2Proof.Machine

/-! ## Decoding (R64, R66) -/

theorem decodeWord_of_decodeTree_some {w : Half} {i : Instr} (h : decodeTree w = some i) : decodeWord w = .ok i := by
  rw [decodeWord, h]

theorem decodeWord_of_decodeTree_none {w : Half} (h : decodeTree w = none) :
    decodeWord w = .error (.unknownOpcode w) := by
  rw [decodeWord, h]

/-- Decoding undoes encoding, a case per format of R62: the fields of the format's word are the operands. -/
theorem decodeTree_encode (i : Instr) : decodeTree (encode i) = some i := by
  cases i with
  | nop | cls | ret => rfl
  | jp | call | ldI | jpV0 => simp [encode, decodeTree]
  | seImm | sneImm | ldImm | addImm | rnd => simp [encode, decodeTree]
  | seReg | sneReg | drw => simp [encode, decodeTree]
  | ldReg | orReg | andReg | xorReg | addReg | subReg | shr | subnReg | shl => simp [encode, decodeTree, decode8]
  | skp | sknp => simp [encode, decodeTree, decodeE]
  | ldVxDt | ldVxK | ldDtVx | ldStVx | addI | ldF | ldB | storeRegs | loadRegs => simp [encode, decodeTree, decodeF]

/-- A number that spells the word of an instruction decodes to it. -/
theorem decodes_of_word_eq_encode {n : Nat} {i : Instr} (h : word n = encode i) : Decodes n i :=
  decodeWord_of_decodeTree_some (h ▸ decodeTree_encode i)

/-- A word below 0x1000 has first nibble 0 (R64). -/
theorem decodeTree_word_of_lt {n : Nat} (h : n < 0x1000) : decodeTree (word n) = decode0 (word n) := by
  have hn : (nibble (word n) 12).toNat = 0 := by rw [nibble_toNat, BitVec.toNat_ofNat]; omega
  simp only [decodeTree, hn]

theorem decode0_eq_none {w : Half} (h0 : w ≠ 0x0000) (hE0 : w ≠ 0x00E0) (hEE : w ≠ 0x00EE) : decode0 w = none := by
  rw [decode0, if_neg h0, if_neg hE0, if_neg hEE]

theorem word_ne_word {m n : Nat} (hm : m < 2 ^ 16) (hn : n < 2 ^ 16) (h : m ≠ n) : word m ≠ word n := by
  bv_omega

/-- The words of first nibbles 5 and 9 with a last nibble other than 0 are no instruction (R86, R87). -/
theorem decodeTree_wordXYN_eq_none {op : BitVec 4} (hop : op = 0x5 ∨ op = 0x9) (x y : Reg) {n : BitVec 4} (h : n ≠ 0) :
    decodeTree (wordXYN op x y n) = none := by
  have hn : fieldImmN (wordXYN op x y n) ≠ 0 := by rwa [fieldImmN_wordXYN]
  obtain rfl | rfl := hop <;> simp only [decodeTree, nibble_wordXYN] <;> exact if_neg hn

theorem decodeWord_compare_ne_ok {op : BitVec 4} (hop : op = 0x5 ∨ op = 0x9) (x y : Reg) {n : Nat} (h1 : 1 ≤ n)
    (h15 : n ≤ 15) (i : Instr) : decodeWord (word (op.toNat * 4096 + 256 * x.val + 16 * y.val + n)) ≠ .ok i := by
  have hn : (BitVec.ofNat 4 n).toNat = n := by rw [BitVec.toNat_ofNat]; omega
  have hne : BitVec.ofNat 4 n ≠ 0 := by bv_omega
  have hw : word (op.toNat * 4096 + 256 * x.val + 16 * y.val + n) = wordXYN op x y (BitVec.ofNat 4 n) := by
    rw [← ofNat_eq_wordXYN, hn]
    exact congrArg word (by omega)
  rw [hw, decodeWord_of_decodeTree_none (decodeTree_wordXYN_eq_none hop x y hne)]
  exact nofun

/-! ## Frames -/

theorem sameExcept_refl (changed : List Part) (s : State) : SameExcept changed s s := by
  intro part _
  cases part <;> simp [SamePart]

/-- A jump writes `PC` only. -/
theorem sameExcept_jump (s : State) (target : Half) : SameExcept [.pc] s (s.jump target) := by
  intro part hpart
  cases part
  case pc => exact absurd (List.mem_singleton_self _) hpart
  case regs => exact State.getV_congr rfl
  case mem => exact State.readMem_congr rfl
  all_goals simp [SamePart]

/-- A skip, taken or not, writes `PC` only (R89). -/
theorem sameExcept_skipIf (s : State) (taken : Bool) : SameExcept [.pc] s (s.skipIf taken) := by
  cases taken with
  | false => exact sameExcept_refl _ s
  | true => exact sameExcept_jump s _

/-- A call's push and jump write `PC`, `SP` and the stack only (R83). -/
theorem sameExcept_push_jump {s t : State} (h : s.push = some t) (target : Half) :
    SameExcept [.pc, .sp, .stack] s (t.jump target) := by
  obtain ⟨_, rfl⟩ := State.push_eq_some.mp h
  intro part hpart
  cases part
  case pc | sp | stack => simp at hpart
  case regs => exact State.getV_congr rfl
  case mem => exact State.readMem_congr rfl
  all_goals simp [SamePart]

/-! ## Targets and the fetch -/

theorem zextAddr_toNat (nnn : BitVec 12) : (zextAddr nnn).toNat = nnn.toNat := BitVec.toNat_setWidth_of_le (by omega)

/-- The sum of BNNN is exact: a byte and a 12-bit address never pass 65535 (R88). -/
theorem offsetTarget_toNat (s : State) (nnn : BitVec 12) :
    (s.offsetTarget nnn).toNat = (s.getV 0).toNat + nnn.toNat := by
  have hv : (zext16 (s.getV 0)).toNat = (s.getV 0).toNat := BitVec.toNat_setWidth_of_le (by omega)
  rw [State.offsetTarget, BitVec.toNat_add, hv, zextAddr_toNat]
  omega

/-- EXECUTE with `PC` above 4094 fails in its fetch and changes nothing (R173, R194). -/
theorem execute_of_pc_ge {s : State} (h : 4095 ≤ s.pc.toNat) (b : Byte) :
    command (.execute b) s = .fault (.memoryOutOfBounds s) :=
  executeCommand_of_no_fetch (some b) (State.fetchBytes_eq_none.mpr h)

/-! ## CALL (R83) -/

theorem exec_call_of_push_some {s t : State} (nnn : BitVec 12) (h : s.push = some t) :
    exec (.call nnn) s = .next (t.jump (zextAddr nnn)) := by
  simp only [exec, execCall, h]

theorem exec_call_of_push_none {s : State} (nnn : BitVec 12) (h : s.push = none) :
    exec (.call nnn) s = .fault (.stackOverflow s) := by
  simp only [exec, execCall, h, raise, Fault.of]

end Sys2Proof.Claims
end

section
/-! The obligations of the control-flow instructions (spec/40_control_flow.md). -/

namespace Sys2Proof.Claims

open Sys2Proof.Machine

/-- Settles O16: a word below 0x1000 is decided by `decode0`, which knows three whole words. -/
theorem nopChangesNothing : Obligations.NopChangesNothing := by
  refine ⟨decodes_of_word_eq_encode rfl, fun _ => rfl, fun n hn h0 hE0 hEE => ?_⟩
  have hne : ∀ m, m < 0x1000 → n ≠ m → word n ≠ word m := fun m hm => word_ne_word (by omega) (by omega)
  apply decodeWord_of_decodeTree_none
  rw [decodeTree_word_of_lt hn]
  exact decode0_eq_none (hne 0 (by omega) h0) (hne 0xE0 (by omega) hE0) (hne 0xEE (by omega) hEE)

/-- Settles O18. -/
theorem jumpSetsPc : Obligations.JumpSetsPc := by
  intro nnn s
  have hpc : (s.jump (zextAddr nnn)).pc.toNat = nnn.toNat := zextAddr_toNat nnn
  refine ⟨decodes_of_word_eq_encode (ofNat_eq_wordNNN 0x1 nnn), _, rfl, hpc, sameExcept_jump s _, fun htop b => ?_,
    fun hself => ?_⟩
  · exact execute_of_pc_ge (by omega) b
  · bv_omega

/-- Settles O20: the push is the only step that can fail, and it writes the slot `SP` numbers. -/
theorem callPushesAndJumps : Obligations.CallPushesAndJumps := by
  refine fun nnn s => ⟨decodes_of_word_eq_encode (ofNat_eq_wordNNN 0x2 nnn), fun k hk => ?_, fun hfull => ?_⟩
  · have hpush := State.push_eq_some.mpr ⟨(by omega : s.sp.val < 16), rfl⟩
    refine ⟨_, exec_call_of_push_some nnn hpush, zextAddr_toNat nnn, ?_, ?_, fun j hj => ?_,
      sameExcept_push_jump hpush _⟩
    · simp [hk]
    · simp [hk]
    · have hval : k.val ≠ j.val := fun e => hj (Fin.ext e.symm)
      simp [hk, hval]
  · exact exec_call_of_push_none nnn (State.push_eq_none.mpr hfull)

/-- Settles O22: each skip is `skipIf` of its condition, whose `PC` is `State.skipIf_pc`. -/
theorem skipsFollowTheirConditions : Obligations.SkipsFollowTheirConditions := by
  refine fun x y nn s => ⟨decodes_of_word_eq_encode (ofNat_eq_wordXNN 0x3 x nn),
    decodes_of_word_eq_encode (ofNat_eq_wordXNN 0x4 x nn), decodes_of_word_eq_encode (ofNat_eq_wordXYN 0x5 x y 0),
    decodes_of_word_eq_encode (ofNat_eq_wordXYN 0x9 x y 0), fun n h1 h15 i => ⟨?_, ?_⟩,
    ⟨_, rfl, ?_, sameExcept_skipIf s _⟩, ⟨_, rfl, ?_, sameExcept_skipIf s _⟩,
    ⟨_, rfl, ?_, sameExcept_skipIf s _⟩, ⟨_, rfl, ?_, sameExcept_skipIf s _⟩⟩
  · exact decodeWord_compare_ne_ok (.inl rfl) x y h1 h15 i
  · exact decodeWord_compare_ne_ok (.inr rfl) x y h1 h15 i
  all_goals simp

/-- Settles O23. -/
theorem jumpV0AddsWithoutMask : Obligations.JumpV0AddsWithoutMask := by
  intro nnn s
  have hpc : (s.jump (s.offsetTarget nnn)).pc.toNat = (s.getV 0).toNat + nnn.toNat := offsetTarget_toNat s nnn
  refine ⟨decodes_of_word_eq_encode (ofNat_eq_wordNNN 0xB nnn), _, rfl, hpc, by omega, sameExcept_jump s _,
    fun hsum b => ?_⟩
  exact execute_of_pc_ge (hpc ▸ hsum) b

end Sys2Proof.Claims
end

section
/-! SUPPORT. What the arithmetic statements share: the frames of a register write and of a result with its flag, and the
flag computations as numbers (spec/10_state.md R12, R13). -/

namespace Sys2Proof.Claims

open Sys2Proof.Machine

/-! ## Frames of register writes -/

/-- A new register file leaves every other part of the state as it is. -/
theorem sameExcept_regFile (s : State) (v : Vector Byte 16) : SameExcept [.regs] s { s with v := v } := by
  intro part hpart
  cases part
  case regs => exact absurd (List.mem_singleton_self _) hpart
  case mem => exact State.readMem_congr rfl
  all_goals simp [SamePart]

theorem sameExcept_setV (s : State) (x : Reg) (b : Byte) : SameExcept [.regs] s (s.setV x b) :=
  sameExcept_regFile s _

theorem sameExcept_setResultAndFlag (s : State) (x : Reg) (result : Byte) (flag : Bool) :
    SameExcept [.regs] s (s.setResultAndFlag x result flag) :=
  sameExcept_regFile s _

theorem sameRegsExcept_setV (s : State) (x : Reg) (b : Byte) : SameRegsExcept [x] s (s.setV x b) :=
  fun _ hr => State.getV_setV_ne s b (List.ne_of_not_mem_cons hr)

theorem sameRegsExcept_setResultAndFlag (s : State) (x : Reg) (result : Byte) (flag : Bool) :
    SameRegsExcept [x, 15] s (s.setResultAndFlag x result flag) := by
  intro r hr
  obtain ⟨hx, hvf⟩ := List.ne_and_not_mem_of_not_mem_cons hr
  exact State.getV_setResultAndFlag_ne s result flag hx (List.ne_of_not_mem_cons hvf)

/-! ## Results and flags as numbers -/

theorem flagByte_carryOf (a b : Byte) : flagByte (carryOf a b) = if a.toNat + b.toNat > 255 then 1 else 0 :=
  flagByte_decide _

theorem flagByte_noBorrowOf (a b : Byte) : flagByte (noBorrowOf a b) = if a.toNat ≥ b.toNat then 1 else 0 :=
  flagByte_decide _

/-- A difference of bytes wraps modulo 256, written with the minuend first. -/
theorem byteSub_toNat (a b : Byte) : (a - b).toNat = (a.toNat + 256 - b.toNat) % 256 := by
  rw [BitVec.toNat_sub]
  omega

/-- The registers after a difference with its not-borrow: with `x` = 15 the flag wins (R107, R109). -/
theorem subWithNotBorrow_registers (s : State) (x : Reg) (a b : Byte) :
    (x ≠ 15 → ((s.setResultAndFlag x (a - b) (noBorrowOf a b)).getV x).toNat = (a.toNat + 256 - b.toNat) % 256) ∧
    (s.setResultAndFlag x (a - b) (noBorrowOf a b)).getV 15 = if a.toNat ≥ b.toNat then 1 else 0 := by
  refine ⟨fun hx => ?_, ?_⟩
  · rw [State.getV_setResultAndFlag_dest s _ _ hx, byteSub_toNat]
  · rw [State.getV_setResultAndFlag_vf, flagByte_noBorrowOf]

end Sys2Proof.Claims
end

section
/-! The obligations of the register loads and the arithmetic (spec/41_alu.md). -/

namespace Sys2Proof.Claims

open Sys2Proof.Machine

/-- Settles O24: both loads are one `setV`. -/
theorem loadsMoveTheValue : Obligations.LoadsMoveTheValue :=
  fun x y nn s => ⟨decodes_of_word_eq_encode (ofNat_eq_wordXNN 0x6 x nn),
    decodes_of_word_eq_encode (ofNat_eq_wordXYN 0x8 x y 0x0),
    ⟨_, rfl, State.getV_setV_same s x _, sameRegsExcept_setV s x _, sameExcept_setV s x _⟩,
    ⟨_, rfl, State.getV_setV_same s x _, sameRegsExcept_setV s x _, sameExcept_setV s x _⟩⟩

/-- Settles O25. -/
theorem addImmediateWrapsWithoutFlag : Obligations.AddImmediateWrapsWithoutFlag := by
  intro x nn s
  refine ⟨decodes_of_word_eq_encode (ofNat_eq_wordXNN 0x7 x nn), _, rfl, ?_, sameRegsExcept_setV s x _,
    sameExcept_setV s x _⟩
  rw [State.getV_setV_same, BitVec.toNat_add]

/-- Settles O26: each of the three is one `setV` of the bitwise operation. -/
theorem logicIsBitwiseWithoutFlag : Obligations.LogicIsBitwiseWithoutFlag := by
  refine fun x y s => ⟨decodes_of_word_eq_encode (ofNat_eq_wordXYN 0x8 x y 0x1),
    decodes_of_word_eq_encode (ofNat_eq_wordXYN 0x8 x y 0x2), decodes_of_word_eq_encode (ofNat_eq_wordXYN 0x8 x y 0x3),
    ⟨_, rfl, fun j => ?_, sameRegsExcept_setV s x _, sameExcept_setV s x _⟩,
    ⟨_, rfl, fun j => ?_, sameRegsExcept_setV s x _, sameExcept_setV s x _⟩,
    ⟨_, rfl, fun j => ?_, sameRegsExcept_setV s x _, sameExcept_setV s x _⟩⟩
  · rw [State.getV_setV_same, BitVec.getLsbD_or]
  · rw [State.getV_setV_same, BitVec.getLsbD_and]
  · rw [State.getV_setV_same, BitVec.getLsbD_xor]

/-- Settles O27: the flag is the second write, so with `X` = 15 the carry stands. -/
theorem addSetsCarry : Obligations.AddSetsCarry := by
  intro x y s
  refine ⟨decodes_of_word_eq_encode (ofNat_eq_wordXYN 0x8 x y 0x4), _, rfl, fun hx => ?_, ?_,
    sameRegsExcept_setResultAndFlag s x _ _, sameExcept_setResultAndFlag s x _ _⟩
  · rw [State.getV_setResultAndFlag_dest s _ _ hx, BitVec.toNat_add]
  · rw [State.getV_setResultAndFlag_vf, flagByte_carryOf]

/-- Settles O28: SUB and SUBN are one subtraction, with its operands in either order. -/
theorem subtractionsSetNotBorrow : Obligations.SubtractionsSetNotBorrow := by
  intro x y s
  obtain ⟨hsub, hsubFlag⟩ := subWithNotBorrow_registers s x (s.getV x) (s.getV y)
  obtain ⟨hsubn, hsubnFlag⟩ := subWithNotBorrow_registers s x (s.getV y) (s.getV x)
  exact ⟨decodes_of_word_eq_encode (ofNat_eq_wordXYN 0x8 x y 0x5),
    decodes_of_word_eq_encode (ofNat_eq_wordXYN 0x8 x y 0x7),
    ⟨_, rfl, hsub, hsubFlag, sameRegsExcept_setResultAndFlag s x _ _, sameExcept_setResultAndFlag s x _ _⟩,
    ⟨_, rfl, hsubn, hsubnFlag, sameRegsExcept_setResultAndFlag s x _ _, sameExcept_setResultAndFlag s x _ _⟩⟩

end Sys2Proof.Claims
end

section
/-! SUPPORT. The index register: the frame of a write to `I`, and the glyph address as a number (spec/42_index_memory.md).
-/

namespace Sys2Proof.Claims

open Sys2Proof.Machine

/-- A new index register leaves every other part of the state as it is. -/
theorem sameExcept_index (s : State) (a : Half) : SameExcept [.index] s { s with i := a } := by
  intro part hpart
  cases part
  case index => exact absurd (List.mem_singleton_self _) hpart
  case regs => exact State.getV_congr rfl
  case mem => exact State.readMem_congr rfl
  all_goals simp [SamePart]

/-- Five times the whole byte, at most 1275, fits the 16-bit `I` (R122). -/
theorem glyphAddr_toNat (b : Byte) : (glyphAddr b).toNat = 5 * b.toNat := by
  rw [glyphAddr, Config.glyphBytes, BitVec.toNat_ofNat]
  omega

end Sys2Proof.Claims
end

section
/-! The obligations of the index register and memory instructions (spec/42_index_memory.md). -/

namespace Sys2Proof.Claims

open Sys2Proof.Machine

/-- Settles O31: both loads write `I` and nothing else. -/
theorem indexLoads : Obligations.IndexLoads :=
  fun nnn x s => ⟨decodes_of_word_eq_encode (ofNat_eq_wordNNN 0xA nnn),
    decodes_of_word_eq_encode (ofNat_eq_wordX 0xF x 0x29),
    ⟨_, rfl, zextAddr_toNat nnn, sameExcept_index s _⟩,
    ⟨_, rfl, glyphAddr_toNat (s.getV x), sameExcept_index s _⟩⟩

end Sys2Proof.Claims
end

section
/-! SUPPORT. The framebuffer: the frame of a write to it, and CLS (spec/43_display.md). -/

namespace Sys2Proof.Claims

open Sys2Proof.Machine

/-- A new framebuffer leaves every other part of the state as it is. -/
theorem sameExcept_frameBuffer (s : State) (screen : FrameBuffer) : SameExcept [.fb] s { s with fb := screen } := by
  intro part hpart
  cases part
  case fb => exact absurd (List.mem_singleton_self _) hpart
  case regs => exact State.getV_congr rfl
  case mem => exact State.readMem_congr rfl
  all_goals simp [SamePart]

/-- CLS replaces the framebuffer by one that is unlit everywhere (R140). -/
theorem exec_cls (s : State) : exec .cls s = .next { s with fb := Vector.replicate 2048 false } := rfl

end Sys2Proof.Claims
end

section
/-! The obligation of the display instruction CLS (spec/43_display.md). -/

namespace Sys2Proof.Claims

open Sys2Proof.Machine

/-- Settles O38: CLS is one write of the blank framebuffer. -/
theorem clearScreenClearsEveryCell : Obligations.ClearScreenClearsEveryCell :=
  ⟨decodes_of_word_eq_encode rfl, fun s =>
    ⟨_, exec_cls s, fun k => Vector.getElem_replicate k.isLt, sameExcept_frameBuffer s _⟩⟩

end Sys2Proof.Claims
end

section
/-! SUPPORT. Keys and timers: the key skips and the key wait by what the keypad shows, the frame of a write to `DT`, and
what every instruction leaves in the two timers (spec/44_keypad_timers.md). -/

namespace Sys2Proof.Claims

open Sys2Proof.Machine

/-! ## Keys (R150, R151, R153) -/

theorem exec_skp_of_key {x : Reg} {s : State} {k : Key} (h : (s.getV x).toNat = k.val) :
    exec (.skp x) s = .next (s.skipIf s.keys[k.val]) := by
  simp only [exec, execSkp, keyNumber_eq_some.mpr h]

theorem exec_sknp_of_key {x : Reg} {s : State} {k : Key} (h : (s.getV x).toNat = k.val) :
    exec (.sknp x) s = .next (s.skipIf (!s.keys[k.val])) := by
  simp only [exec, execSknp, keyNumber_eq_some.mpr h]

theorem exec_skp_of_no_key {x : Reg} {s : State} (h : 16 ≤ (s.getV x).toNat) :
    exec (.skp x) s = .fault (.invalidKeyIndex s) := by
  simp only [exec, execSkp, keyNumber_eq_none.mpr h, raise, Fault.of]

theorem exec_sknp_of_no_key {x : Reg} {s : State} (h : 16 ≤ (s.getV x).toNat) :
    exec (.sknp x) s = .fault (.invalidKeyIndex s) := by
  simp only [exec, execSknp, keyNumber_eq_none.mpr h, raise, Fault.of]

theorem exec_ldVxK_of_key (x : Reg) {s : State} {k : Key} (h : s.lowestKey = some k) :
    exec (.ldVxK x) s = .next (s.setV x (keyByte k)) := by
  simp only [exec, execLdVxK, h]

theorem exec_ldVxK_of_no_key (x : Reg) {s : State} (h : s.lowestKey = none) :
    exec (.ldVxK x) s = .next (s.jump (s.pc - 2)) := by
  simp only [exec, execLdVxK, h, Config.instrBytes]

/-! ## The delay timer -/

/-- A new delay timer leaves every other part of the state as it is. -/
theorem sameExcept_delay (s : State) (b : Byte) : SameExcept [.delay] s { s with dt := b } := by
  intro part hpart
  cases part
  case delay => exact absurd (List.mem_singleton_self _) hpart
  case regs => exact State.getV_congr rfl
  case mem => exact State.readMem_congr rfl
  all_goals simp [SamePart]

/-! ## The state a result leaves -/

/-- The result leaves the core in this state, be it after success or after an error (R197, R198). -/
def Leaves (result : Result) (t : State) : Prop := result = .next t ∨ ∃ f, result = .fault f ∧ t = f.after

@[simp] theorem leaves_next {u t : State} : Leaves (.next u) t ↔ t = u := by
  simp [Leaves, eq_comm]

@[simp] theorem leaves_raise {e : Error} {u t : State} : Leaves (raise e u) t ↔ t = u := by
  simp [Leaves, raise]

/-! ## What an instruction leaves in the timers (R154, R155, R156) -/

/-- `DT` and `ST` (R18). -/
def timers (s : State) : Byte × Byte := (s.dt, s.st)

/-- The timers an instruction leaves: FX15 sets `DT` and FX18 sets `ST`, and no other instruction writes either. -/
def timersAfter : Instr → State → Byte × Byte
  | .ldDtVx x, s => (s.getV x, s.st)
  | .ldStVx x, s => (s.dt, s.getV x)
  | _, s => timers s

theorem timersAfter_delay {i : Instr} (h : ∀ x, i ≠ .ldDtVx x) (s : State) : (timersAfter i s).1 = s.dt := by
  cases i with
  | ldDtVx x => exact absurd rfl (h x)
  | _ => rfl

theorem timersAfter_sound {i : Instr} (h : ∀ x, i ≠ .ldStVx x) (s : State) : (timersAfter i s).2 = s.st := by
  cases i with
  | ldStVx x => exact absurd rfl (h x)
  | _ => rfl

/-- Whatever state the result leaves, it has these timers. -/
def LeavesTimers (result : Result) (clocks : Byte × Byte) : Prop := ∀ t, Leaves result t → timers t = clocks

theorem leavesTimers_next {u : State} {clocks : Byte × Byte} (h : timers u = clocks) :
    LeavesTimers (.next u) clocks := fun _ ht => leaves_next.mp ht ▸ h

theorem leavesTimers_raise {e : Error} {u : State} {clocks : Byte × Byte} (h : timers u = clocks) :
    LeavesTimers (raise e u) clocks := fun _ ht => leaves_raise.mp ht ▸ h

theorem timers_skipIf (s : State) (taken : Bool) : timers (s.skipIf taken) = timers s := by
  simp [timers]

theorem storeBytes_leavesTimers (e : Error) (bytes : List Byte) (a : Nat) (s : State) :
    LeavesTimers (storeBytes e bytes a s) (timers s) := by
  obtain ⟨m, hstore, -, -⟩ := storeBytes_spec e bytes a s
  rw [hstore]
  split
  · exact leavesTimers_next rfl
  · exact leavesTimers_raise rfl

theorem loadBytes_leavesTimers {regs : List Reg} (h : regs.Nodup) (a : Nat) (s : State) :
    LeavesTimers (loadBytes regs a s) (timers s) := by
  obtain ⟨v, hload, -, -⟩ := loadBytes_spec regs a s h
  rw [hload]
  split
  · exact leavesTimers_next rfl
  · exact leavesTimers_raise rfl

/-- A draw writes pixels row by row, then VF, or stops at a row past memory. -/
theorem drawRows_leavesTimers (x y : Byte) (rows : List Nat) (hit : Bool) (s : State) :
    LeavesTimers (drawRows x y rows hit s) (timers s) := by
  induction rows generalizing hit s with
  | nil => exact leavesTimers_next rfl
  | cons r rows ih =>
    cases hread : s.readMem (s.effAddr r) with
    | none =>
      simp only [drawRows, hread]
      exact leavesTimers_raise rfl
    | some b =>
      simp only [drawRows, hread]
      exact ih _ _

theorem execRet_leavesTimers (s : State) : LeavesTimers (execRet s) (timers s) := by
  cases hpop : s.pop with
  | none =>
    simp only [execRet, hpop]
    exact leavesTimers_raise rfl
  | some t =>
    obtain ⟨_, rfl⟩ := State.pop_eq_some.mp hpop
    simp only [execRet, hpop]
    exact leavesTimers_next rfl

theorem execCall_leavesTimers (nnn : BitVec 12) (s : State) : LeavesTimers (execCall nnn s) (timers s) := by
  cases hpush : s.push with
  | none =>
    simp only [execCall, hpush]
    exact leavesTimers_raise rfl
  | some t =>
    obtain ⟨_, rfl⟩ := State.push_eq_some.mp hpush
    simp only [execCall, hpush]
    exact leavesTimers_next rfl

theorem execSkp_leavesTimers (x : Reg) (s : State) : LeavesTimers (execSkp x s) (timers s) := by
  rw [execSkp]
  split
  · exact leavesTimers_next (timers_skipIf s _)
  · exact leavesTimers_raise rfl

theorem execSknp_leavesTimers (x : Reg) (s : State) : LeavesTimers (execSknp x s) (timers s) := by
  rw [execSknp]
  split
  · exact leavesTimers_next (timers_skipIf s _)
  · exact leavesTimers_raise rfl

theorem execLdVxK_leavesTimers (x : Reg) (s : State) : LeavesTimers (execLdVxK x s) (timers s) := by
  rw [execLdVxK]
  split <;> exact leavesTimers_next rfl

/-- The timers after any instruction, whether it ends well or with an error: a case per shape of the instruction. -/
theorem exec_leavesTimers (i : Instr) (s : State) : LeavesTimers (exec i s) (timersAfter i s) := by
  cases i with
  | ldDtVx | ldStVx => exact leavesTimers_next rfl
  | nop | cls | jp | jpV0 | ldI | addI | ldF => exact leavesTimers_next rfl
  | ldImm | ldReg | ldVxDt | addImm | orReg | andReg | xorReg | rnd => exact leavesTimers_next rfl
  | addReg | subReg | subnReg | shr | shl => exact leavesTimers_next rfl
  | seImm | sneImm | seReg | sneReg => exact leavesTimers_next (timers_skipIf s _)
  | skp x => exact execSkp_leavesTimers x s
  | sknp x => exact execSknp_leavesTimers x s
  | ldVxK x => exact execLdVxK_leavesTimers x s
  | ret => exact execRet_leavesTimers s
  | call nnn => exact execCall_leavesTimers nnn s
  | drw => exact drawRows_leavesTimers _ _ _ _ s
  | ldB | storeRegs => exact storeBytes_leavesTimers _ _ _ s
  | loadRegs x => exact loadBytes_leavesTimers (regsUpTo_nodup x) _ s

/-! ## What EXECUTE leaves in the timers (R156, R173) -/

theorem fetchesInstr_of_fetchBytes {s : State} {i : Instr} {hi lo : Byte} (hf : s.fetchBytes = some (hi, lo))
    (hd : decodeWord (wordOfBytes hi lo) = .ok i) : FetchesInstr s i := by
  obtain ⟨hhi, hlo⟩ := State.fetchBytes_eq_some.mp hf
  exact ⟨hi, lo, hhi, hlo, wordOfBytes_eq_ofNat hi lo ▸ hd⟩

/-- EXECUTE keeps the timers when it fails before it has an instruction, else they are the fetched instruction's. -/
theorem execute_timers {s t : State} {b : Byte} (h : Leaves (command (.execute b) s) t) :
    timers t = timers s ∨ ∃ i, FetchesInstr s i ∧ timers t = timersAfter i (s.enter (some b)) := by
  change Leaves (executeCommand (some b) s) t at h
  obtain ⟨-, hexec⟩ | ⟨hi, lo, hfetch, ⟨e, -, hexec⟩ | ⟨i, hdecode, hexec⟩⟩ := executeCommand_cases (some b) s
  · exact .inl (leavesTimers_raise rfl t (hexec ▸ h))
  · exact .inl (leavesTimers_raise (u := s.enter (some b)) rfl t (hexec ▸ h))
  · exact .inr ⟨i, fetchesInstr_of_fetchBytes hfetch hdecode, exec_leavesTimers i _ t (hexec ▸ h)⟩

end Sys2Proof.Claims
end

section
/-! The obligations of the keypad and timer instructions (spec/44_keypad_timers.md). -/

namespace Sys2Proof.Claims

open Sys2Proof.Machine

/-- Settles O15: the timers after EXECUTE are those of the fetched instruction, if it fetches one. -/
theorem executeNeverCountsTheTimers : Obligations.ExecuteNeverCountsTheTimers := by
  intro s t b h
  obtain hkept | ⟨i, hi, hafter⟩ := execute_timers h
  · exact ⟨fun _ => congrArg Prod.fst hkept, fun _ => congrArg Prod.snd hkept⟩
  · refine ⟨fun hno => ?_, fun hno => ?_⟩
    · have hne : ∀ x, i ≠ .ldDtVx x := fun x hx => hno x (hx ▸ hi)
      exact (congrArg Prod.fst hafter).trans (timersAfter_delay hne _)
    · have hne : ∀ x, i ≠ .ldStVx x := fun x hx => hno x (hx ▸ hi)
      exact (congrArg Prod.snd hafter).trans (timersAfter_sound hne _)

/-- Settles O42: each skip is `skipIf` of the latch VX numbers, and there is none above 15. -/
theorem keySkipsReadTheLatch : Obligations.KeySkipsReadTheLatch := by
  refine fun x s => ⟨decodes_of_word_eq_encode (ofNat_eq_wordX 0xE x 0x9E),
    decodes_of_word_eq_encode (ofNat_eq_wordX 0xE x 0xA1), fun k hk => ⟨?_, ?_⟩,
    fun hbad => ⟨exec_skp_of_no_key hbad, exec_sknp_of_no_key hbad⟩⟩
  · exact ⟨_, exec_skp_of_key hk, State.skipIf_pc s _, sameExcept_skipIf s _⟩
  · refine ⟨_, exec_sknp_of_key hk, ?_, sameExcept_skipIf s _⟩
    rw [State.skipIf_pc]
    cases s.keys[k.val] <;> rfl

/-- Settles O43: one load is one `setV`, the other one write of `DT`. -/
theorem delayTimerMoves : Obligations.DelayTimerMoves :=
  fun x s => ⟨decodes_of_word_eq_encode (ofNat_eq_wordX 0xF x 0x07),
    decodes_of_word_eq_encode (ofNat_eq_wordX 0xF x 0x15),
    ⟨_, rfl, State.getV_setV_same s x _, sameRegsExcept_setV s x _, sameExcept_setV s x _⟩,
    ⟨_, rfl, rfl, sameExcept_delay s _⟩⟩

/-- Settles O45: `lowestKey` is the pressed key with none below it, or none. -/
theorem keyWaitTakesTheLowestKey : Obligations.KeyWaitTakesTheLowestKey := by
  refine fun x s => ⟨decodes_of_word_eq_encode (ofNat_eq_wordX 0xF x 0x0A), fun k hk hlower => ?_, fun hnone => ?_⟩
  · refine ⟨_, exec_ldVxK_of_key x (State.lowestKey_eq_some.mpr ⟨hk, hlower⟩), ?_, sameRegsExcept_setV s x _,
      sameExcept_setV s x _⟩
    rw [State.getV_setV_same, keyByte_toNat]
  · exact ⟨_, exec_ldVxK_of_no_key x (State.lowestKey_eq_none.mpr hnone), rfl, sameExcept_jump s _⟩

end Sys2Proof.Claims
end

section
/-! SUPPORT. EXECUTE where a word can be fetched, and the reset value of every piece of the core
(spec/45_host_commands.md R171, R173; spec/10_state.md R26). -/

namespace Sys2Proof.Claims

open Sys2Proof.Machine

/-! ## EXECUTE (R173) -/

/-- A fetch up to address 4094 has both its bytes in the address space (R173). -/
theorem exists_fetchBytes_of_pc_le {s : State} (h : s.pc.toNat ≤ 4094) : ∃ hi lo, s.fetchBytes = some (hi, lo) := by
  have hsome : s.fetchBytes ≠ none := fun hnone => by
    have hge := State.fetchBytes_eq_none.mp hnone
    omega
  obtain ⟨⟨hi, lo⟩, hf⟩ := Option.ne_none_iff_exists'.mp hsome
  exact ⟨hi, lo, hf⟩

theorem exists_decodeWord_error {w : Half} (h : ∀ i, decodeWord w ≠ .ok i) : ∃ e, decodeWord w = .error e := by
  cases hd : decodeWord w with
  | error e => exact ⟨e, rfl⟩
  | ok i => exact absurd hd (h i)

/-- EXECUTE of a fetched word that decodes runs its instruction past it (R173). -/
theorem execute_of_decode {s : State} {hi lo : Byte} {i : Instr} (b : Byte) (hf : s.fetchBytes = some (hi, lo))
    (hd : decodeWord (wordOfBytes hi lo) = .ok i) : command (.execute b) s = exec i (s.enter (some b)) :=
  executeCommand_of_decode (some b) hf hd

/-- EXECUTE of a fetched word that decodes to nothing is UnknownOpcode past it (R173, R191). -/
theorem execute_of_no_decode {s : State} {hi lo : Byte} (b : Byte) (hf : s.fetchBytes = some (hi, lo))
    (hd : ∀ i, decodeWord (wordOfBytes hi lo) ≠ .ok i) :
    command (.execute b) s = .fault (.unknownOpcode (s.enter (some b))) := by
  obtain ⟨e, he⟩ := exists_decodeWord_error hd
  exact executeCommand_of_error (some b) hf he

/-! ## Reset values (R26, R41, R42) -/

theorem unlisted_of_lt_fontSize {a : Nat} (h : a < 80) : Memory.unlisted a = fontByte a := if_pos h

theorem unlisted_of_fontSize_le {a : Nat} (h : 80 ≤ a) : Memory.unlisted a = 0 := if_neg (Nat.not_lt.mpr h)

/-- A memory that lists nothing reads as its reset content. -/
theorem readMem_of_mem_nil {s : State} (h : s.mem = []) {a : Nat} (ha : a < 4096) :
    s.readMem a = some (Memory.unlisted a) := by
  rw [s.readMem_of_lt ha, h, Memory.read_nil]

/-- The reset state with any of the fields that are the model's own and no state of the core (R25). -/
def resetWithInputs (rnd : Option Byte) (draws : Nat) (pending : List Command) : State :=
  { State.reset with rnd := rnd, draws := draws, pending := pending }

/-- RESET keeps the model's own fields and nothing else (R171; log 23). -/
theorem command_reset (s : State) : command .reset s = .next (resetWithInputs s.rnd s.draws s.pending) := rfl

theorem reset_eq_resetWithInputs : State.reset = resetWithInputs none 0 [] := rfl

section
variable (rnd : Option Byte) (draws : Nat) (pending : List Command)

theorem getV_resetWithInputs (r : Reg) : (resetWithInputs rnd draws pending).getV r = 0 :=
  Vector.getElem_replicate r.isLt

theorem stack_resetWithInputs (k : Fin 16) : (resetWithInputs rnd draws pending).stack[k.val] = 0 :=
  Vector.getElem_replicate k.isLt

theorem keys_resetWithInputs (k : Key) : (resetWithInputs rnd draws pending).keys[k.val] = false :=
  Vector.getElem_replicate k.isLt

theorem fb_resetWithInputs (k : Fin 2048) : (resetWithInputs rnd draws pending).fb[k.val] = false :=
  Vector.getElem_replicate k.isLt

theorem readMem_resetWithInputs_font {a : Nat} (h : a < 80) :
    (resetWithInputs rnd draws pending).readMem a = some (fontByte a) := by
  rw [readMem_of_mem_nil rfl (by omega), unlisted_of_lt_fontSize h]

theorem readMem_resetWithInputs_clear {a : Nat} (h : 80 ≤ a) (ha : a < 4096) :
    (resetWithInputs rnd draws pending).readMem a = some 0 := by
  rw [readMem_of_mem_nil rfl ha, unlisted_of_fontSize_le h]

end

end Sys2Proof.Claims
end

section
/-! The obligations of the commands EXECUTE and RESET (spec/45_host_commands.md). -/

namespace Sys2Proof.Claims

open Sys2Proof.Machine

/-- Settles O6: the fetch fails or gives two bytes, and their word decodes or not; `State.enter` is the state in which
`PC` stands past the word. -/
theorem executeFetchesThenDecodes : Obligations.ExecuteFetchesThenDecodes := by
  refine fun s b => ⟨fun htop => execute_of_pc_ge htop b, fun hpc => ?_⟩
  obtain ⟨hi, lo, hf⟩ := exists_fetchBytes_of_pc_le hpc
  obtain ⟨hhi, hlo⟩ := State.fetchBytes_eq_some.mp hf
  refine ⟨hi, lo, hhi, hlo, ?_⟩
  rw [← wordOfBytes_eq_ofNat]
  exact ⟨fun i hd => execute_of_decode b hf hd, fun hd => execute_of_no_decode b hf hd⟩

/-- Settles O47: RESET and power-on give the same core, `resetWithInputs`, and differ in the model's own fields only. -/
theorem resetRestoresEveryPiece : Obligations.ResetRestoresEveryPiece := by
  refine fun s => ⟨response_of_next (command_reset s), _, command_reset s, fun u hu => ?_⟩
  obtain ⟨rnd, draws, pending, rfl⟩ : ∃ rnd draws pending, u = resetWithInputs rnd draws pending :=
    hu.elim (fun h => ⟨_, _, _, h⟩) (fun h => ⟨_, _, _, h.trans reset_eq_resetWithInputs⟩)
  exact ⟨getV_resetWithInputs rnd draws pending, rfl, rfl, stack_resetWithInputs rnd draws pending, rfl, rfl, rfl,
    keys_resetWithInputs rnd draws pending, fb_resetWithInputs rnd draws pending,
    fun _ => readMem_resetWithInputs_font rnd draws pending,
    fun _ => readMem_resetWithInputs_clear rnd draws pending⟩

end Sys2Proof.Claims
end

section
/-! SUPPORT. Decoding by the opcode map: a word that decodes is the word of its instruction, so the instruction's row
accepts it (spec/30_encoding.md R64 to R66); and the frame of the state in which EXECUTE decodes. -/

namespace Sys2Proof.Claims

open Sys2Proof.Machine Sys2Proof.Laws

/-! ## A word from its fields (R61, R62) -/

theorem wordNNN_of_fields {w : Half} {op : BitVec 4} (hop : (nibble w 12).toNat = op.toNat) :
    wordNNN op (fieldImmNNN w) = w := by
  apply BitVec.eq_of_toNat_eq
  rw [wordNNN_toNat, fieldImmNNN_toNat, ← hop, nibble_toNat]
  omega

theorem wordXNN_of_fields {w : Half} {op : BitVec 4} (hop : (nibble w 12).toNat = op.toNat) :
    wordXNN op (fieldRegX w) (fieldImmNN w) = w := by
  apply BitVec.eq_of_toNat_eq
  rw [wordXNN_toNat, fieldRegX_val, fieldImmNN_toNat, ← hop, nibble_toNat]
  omega

theorem wordX_of_fields {w : Half} {op : BitVec 4} {minor : Byte} (hop : (nibble w 12).toNat = op.toNat)
    (hminor : (fieldImmNN w).toNat = minor.toNat) : wordX op (fieldRegX w) minor = w := by
  obtain rfl := BitVec.eq_of_toNat_eq hminor
  exact wordXNN_of_fields hop

theorem wordXYN_of_fields {w : Half} {op n : BitVec 4} (hop : (nibble w 12).toNat = op.toNat)
    (hn : (fieldImmN w).toNat = n.toNat) : wordXYN op (fieldRegX w) (fieldRegY w) n = w := by
  apply BitVec.eq_of_toNat_eq
  rw [wordXYN_toNat, fieldRegX_val, fieldRegY_val, ← hn, fieldImmN_toNat, ← hop, nibble_toNat]
  omega

/-! ## Encoding undoes decoding, a subtree of R64 at a time -/

theorem encode_of_decode0 {w : Half} {i : Instr} (h : decode0 w = some i) : encode i = w := by
  rw [decode0] at h
  split_ifs at h with hnop hcls hret <;> cases h
  · exact hnop.symm
  · exact hcls.symm
  · exact hret.symm

theorem encode_of_decode8 {w : Half} {i : Instr} (hop : (nibble w 12).toNat = 0x8) (h : decode8 w = some i) :
    encode i = w := by
  simp only [decode8] at h
  split at h
  case h_10 => exact nomatch h
  all_goals
    cases h
    exact wordXYN_of_fields hop ‹_›

theorem encode_of_decodeE {w : Half} {i : Instr} (hop : (nibble w 12).toNat = 0xE) (h : decodeE w = some i) :
    encode i = w := by
  simp only [decodeE] at h
  split at h
  case h_3 => exact nomatch h
  all_goals
    cases h
    exact wordX_of_fields hop ‹_›

theorem encode_of_decodeF {w : Half} {i : Instr} (hop : (nibble w 12).toNat = 0xF) (h : decodeF w = some i) :
    encode i = w := by
  simp only [decodeF] at h
  split at h
  case h_10 => exact nomatch h
  all_goals
    cases h
    exact wordX_of_fields hop ‹_›

theorem encode_of_decodeTree {w : Half} {i : Instr} (h : decodeTree w = some i) : encode i = w := by
  simp only [decodeTree] at h
  split at h <;> rename_i hop
  case h_1 => exact encode_of_decode0 h
  case h_2 | h_3 | h_11 | h_12 => cases h; exact wordNNN_of_fields hop
  case h_4 | h_5 | h_7 | h_8 | h_13 => cases h; exact wordXNN_of_fields hop
  case h_6 | h_10 =>
    obtain ⟨hn, ⟨⟩⟩ := Option.ite_none_right_eq_some.mp h
    exact wordXYN_of_fields hop (congrArg BitVec.toNat hn)
  case h_9 => exact encode_of_decode8 hop h
  case h_14 => cases h; exact wordXYN_of_fields hop rfl
  case h_15 => exact encode_of_decodeE hop h
  case h_16 => exact encode_of_decodeF hop h
  case h_17 => exact nomatch h

theorem decodeTree_of_decodeWord {w : Half} {i : Instr} (h : decodeWord w = .ok i) : decodeTree w = some i := by
  cases hd : decodeTree w with
  | none => exact nomatch (decodeWord_of_decodeTree_none hd).symm.trans h
  | some j => exact congrArg some (Except.ok.inj ((decodeWord_of_decodeTree_some hd).symm.trans h))

theorem encode_of_decodeWord {w : Half} {i : Instr} (h : decodeWord w = .ok i) : encode i = w :=
  encode_of_decodeTree (decodeTree_of_decodeWord h)

/-! ## The rows of the opcode map (R65) -/

theorem row_mem_opRows (i : Instr) : i.row ∈ opRows := by
  cases i <;> simp [Instr.row, opRows, opRowsMajor, opRowsAlu, opRowsMisc]

/-- A case per format of R62: the mask of the row keeps the fixed bits of the format's word and drops its operands. -/
theorem row_accepts_encode (i : Instr) : i.row.accepts (encode i) = true := by
  apply beq_iff_eq.mpr
  cases i with
  | nop | cls | ret => rfl
  | jp nnn | call nnn | ldI nnn | jpV0 nnn => exact FitsRow.rowNNN _ nnn
  | seImm x nn | sneImm x nn | ldImm x nn | addImm x nn | rnd x nn => exact FitsRow.rowXNN _ x nn
  | drw x y n => exact FitsRow.rowXYN _ x y n
  | seReg x y | sneReg x y
  | ldReg x y | orReg x y | andReg x y | xorReg x y | addReg x y | subReg x y | shr x y | subnReg x y | shl x y =>
    exact FitsRow.rowXY _ x y _
  | skp x | sknp x
  | ldVxDt x | ldVxK x | ldDtVx x | ldStVx x | addI x | ldF x | ldB x | storeRegs x | loadRegs x =>
    exact FitsRow.rowX _ x _

theorem row_accepts_of_decodeWord {w : Half} {i : Instr} (h : decodeWord w = .ok i) : i.row.accepts w = true :=
  encode_of_decodeWord h ▸ row_accepts_encode i

/-- A word that matches no row does not decode (R66). -/
theorem decodeWord_ne_ok_of_no_row {w : Half} (h : ∀ r ∈ opRows, r.accepts w = false) (i : Instr) :
    decodeWord w ≠ .ok i := fun hd =>
  Bool.false_ne_true ((h i.row (row_mem_opRows i)).symm.trans (row_accepts_of_decodeWord hd))

/-! ## The state past the fetched word (R173) -/

theorem sameExcept_enter (s : State) (rnd : Option Byte) : SameExcept [.pc, .inputs] s (s.enter rnd) := by
  intro part hpart
  cases part
  case pc | inputs => simp at hpart
  case regs => exact State.getV_congr rfl
  case mem => exact State.readMem_congr rfl
  all_goals simp [SamePart]

end Sys2Proof.Claims
end

section
/-! The obligation of the error UnknownOpcode (spec/60_exceptions.md). -/

namespace Sys2Proof.Claims

open Sys2Proof.Machine

/-- Settles O7: the row of the instruction a word decodes to would accept the word, so a word no row accepts does not
decode, and EXECUTE ends where decoding begins, in `State.enter`. -/
theorem unmatchedWordIsUnknownOpcode : Obligations.UnmatchedWordIsUnknownOpcode := by
  intro s b hi lo hhi hlo hrows
  rw [← wordOfBytes_eq_ofNat] at hrows
  have hf : s.fetchBytes = some (hi, lo) := State.fetchBytes_eq_some.mpr ⟨hhi, hlo⟩
  exact ⟨_, execute_of_no_decode b hf (decodeWord_ne_ok_of_no_row hrows), rfl, rfl, sameExcept_enter s _⟩

end Sys2Proof.Claims
end

section
/-! SUPPORT. Decoding the bytes of an instruction, and that its operands fit their fields (spec/30_encoding.md R60, R61). -/

namespace Sys2Proof.Claims

open Sys2Proof.Machine

/-- The two bytes of an instruction are its word, cut at bit 8, so decoding a sequence that begins with them is decoding
the word. -/
theorem decode_encodeBytes_append (i : Instr) (rest : List Byte) : decode (encodeBytes i ++ rest) = .ok (i, rest) := by
  have hword : decodeWord (wordOfBytes (highByte (encode i)) (lowByte (encode i))) = .ok i := by
    rw [wordOfBytes_highByte_lowByte]
    exact decodeWord_of_decodeTree_some (decodeTree_encode i)
  change decode (highByte (encode i) :: lowByte (encode i) :: rest) = _
  rw [decode_two, hword]
  rfl

/-- Every operand fits its field by its type (R61). -/
theorem wellFormed_of_types (i : Instr) : i.wellFormed = true := by
  cases i <;> simp [Instr.wellFormed, Instr.fields, Laws.FitsRow.fitsX, Laws.FitsRow.fitsY, Laws.FitsRow.fitsN,
    Laws.FitsRow.fitsNN, Laws.FitsRow.fitsNNN]

end Sys2Proof.Claims
end

section
/-! The obligations of the encoder and the decoder, each undoing the other (spec/30_encoding.md R60 to R65). -/

namespace Sys2Proof.Claims

open Sys2Proof.Machine

/-- Settles O2: `decodeTree_encode` is the case split over the formats, and the bytes only cut the word in two. -/
theorem decodeOfEncode : Obligations.DecodeOfEncode := fun i rest =>
  ⟨wellFormed_of_types i, decodeWord_of_decodeTree_some (decodeTree_encode i), decode_encodeBytes_append i rest⟩

/-- Settles O3: `encode_of_decodeTree` goes down the tree of R64 and puts the word together from its fields. -/
theorem encodeOfDecode : Obligations.EncodeOfDecode := fun _ _ => encode_of_decodeWord

end Sys2Proof.Claims
end

section
/-! SUPPORT. One frame lemma for all updates of the state, and what each shared operation answers: a rule per operation,
from which a statement over every instruction is a case per shape of the instruction (spec/10_state.md R28,
spec/60_exceptions.md R190). -/

namespace Sys2Proof.Claims

open Sys2Proof.Machine

/-! ## Frames -/

/-- A part is the same where its field is: one equation per part that is not listed. -/
theorem sameExcept_of_fields {changed : List Part} {s t : State}
    (hregs : Part.regs ∉ changed → t.v = s.v := by simp) (hindex : Part.index ∉ changed → t.i = s.i := by simp)
    (hpc : Part.pc ∉ changed → t.pc = s.pc := by simp) (hstack : Part.stack ∉ changed → t.stack = s.stack := by simp)
    (hsp : Part.sp ∉ changed → t.sp = s.sp := by simp) (hdelay : Part.delay ∉ changed → t.dt = s.dt := by simp)
    (hsound : Part.sound ∉ changed → t.st = s.st := by simp) (hkeys : Part.keys ∉ changed → t.keys = s.keys := by simp)
    (hfb : Part.fb ∉ changed → t.fb = s.fb := by simp) (hmem : Part.mem ∉ changed → t.mem = s.mem := by simp)
    (hinputs : Part.inputs ∉ changed → t.rnd = s.rnd ∧ t.pending = s.pending := by simp)
    (hdraws : Part.draws ∉ changed → t.draws = s.draws := by simp) : SameExcept changed s t := by
  intro part hpart
  cases part with
  | regs => exact State.getV_congr (hregs hpart)
  | mem => exact State.readMem_congr (hmem hpart)
  | stack => intro k; rw [hstack hpart]
  | keys => intro k; rw [hkeys hpart]
  | fb => intro k; rw [hfb hpart]
  | index => exact hindex hpart
  | pc => exact hpc hpart
  | sp => exact hsp hpart
  | delay => exact hdelay hpart
  | sound => exact hsound hpart
  | inputs => exact hinputs hpart
  | draws => exact hdraws hpart

theorem SameExcept.mono {changed changed' : List Part} {s t : State} (h : SameExcept changed s t)
    (hsub : changed ⊆ changed') : SameExcept changed' s t :=
  fun part hpart => h part fun hmem => hpart (hsub hmem)

theorem sameExcept_mem (s : State) (m : Memory) : SameExcept [.mem] s { s with mem := m } := sameExcept_of_fields

theorem sameExcept_sound (s : State) (b : Byte) : SameExcept [.sound] s { s with st := b } := sameExcept_of_fields

/-! ## What a result answers -/

/-- The result is no refusal, an error it ends with is one of `errors`, and `P` holds in the state it leaves, be it after
success or after an error (R190, R197, R230). -/
def Answers (P : State → Prop) (errors : Error → Prop) : Result → Prop
  | .next t => P t
  | .fault f => errors f.error ∧ P f.after
  | .refused _ => False

section
variable {P Q : State → Prop} {errors errors' : Error → Prop} {result : Result}

theorem answers_next {t : State} (h : P t) : Answers P errors (.next t) := h

theorem answers_raise {e : Error} {t : State} (he : errors e) (h : P t) : Answers P errors (raise e t) := by
  simp [Answers, raise, he, h]

theorem Answers.mono (h : Answers P errors result) (hP : ∀ t, P t → Q t) (herr : ∀ e, errors e → errors' e) :
    Answers Q errors' result := by
  cases result with
  | next t => exact hP t h
  | fault f =>
    obtain ⟨he, ht⟩ := h
    exact ⟨herr _ he, hP _ ht⟩
  | refused r => exact h

theorem Answers.ne_refused (h : Answers P errors result) (r : Refusal) : result ≠ .refused r := by
  rintro rfl
  exact h

theorem Answers.next {t : State} (h : Answers P errors result) (hresult : result = .next t) : P t := by
  subst hresult
  exact h

theorem Answers.fault {f : Fault} (h : Answers P errors result) (hresult : result = .fault f) :
    errors f.error ∧ P f.after := by
  subst hresult
  exact h

theorem Answers.leaves {t : State} (h : Answers P errors result) (ht : Leaves result t) : P t := by
  obtain hnext | ⟨f, hfault, rfl⟩ := ht
  · exact h.next hnext
  · exact (h.fault hfault).2

/-! ## A rule per shared operation -/

theorem storeBytes_answers {e : Error} (bytes : List Byte) (a : Nat) (s : State) (he : errors e)
    (h : ∀ m : Memory, (s.mem.wf = true → m.wf = true) →
      (∀ c, m.read c = (if a ≤ c ∧ c < 4096 then bytes[c - a]? else none).getD (s.mem.read c)) →
      P { s with mem := m }) :
    Answers P errors (storeBytes e bytes a s) := by
  obtain ⟨m, hstore, hwf, hread⟩ := storeBytes_spec e bytes a s
  rw [hstore]
  split
  · exact answers_next (h m hwf hread)
  · exact answers_raise he (h m hwf hread)

theorem loadBytes_answers {regs : List Reg} (hnodup : regs.Nodup) (a : Nat) (s : State)
    (he : errors .memoryOutOfBounds)
    (h : ∀ v : Vector Byte 16, (∀ r : Reg, r ∉ regs → v[r.val] = s.getV r) → P { s with v := v }) :
    Answers P errors (loadBytes regs a s) := by
  obtain ⟨v, hload, -, hframe⟩ := loadBytes_spec regs a s hnodup
  rw [hload]
  split
  · exact answers_next (h v hframe)
  · exact answers_raise he (h v hframe)

theorem execRet_answers (s : State) (he : errors .stackUnderflow) (hempty : P s)
    (h : ∀ hused : 0 < s.sp.val, P { s with sp := ⟨s.sp.val - 1, by omega⟩, pc := s.stack[s.sp.val - 1] }) :
    Answers P errors (execRet s) := by
  cases hpop : s.pop with
  | none =>
    simp only [execRet, hpop]
    exact answers_raise he hempty
  | some t =>
    obtain ⟨hused, rfl⟩ := State.pop_eq_some.mp hpop
    simp only [execRet, hpop]
    exact answers_next (h hused)

theorem execCall_answers (nnn : BitVec 12) (s : State) (he : errors .stackOverflow) (hfull : P s)
    (h : ∀ hfree : s.sp.val < 16,
      P { s with stack := s.stack.set s.sp.val s.pc, sp := ⟨s.sp.val + 1, by omega⟩, pc := zextAddr nnn }) :
    Answers P errors (execCall nnn s) := by
  cases hpush : s.push with
  | none =>
    simp only [execCall, hpush]
    exact answers_raise he hfull
  | some t =>
    obtain ⟨hfree, rfl⟩ := State.push_eq_some.mp hpush
    simp only [execCall, hpush]
    exact answers_next (h hfree)

theorem execSkp_answers (x : Reg) (s : State) (he : errors .invalidKeyIndex) (hbad : P s)
    (h : ∀ k : Key, (s.getV x).toNat = k.val → P (s.skipIf s.keys[k.val])) : Answers P errors (execSkp x s) := by
  cases hkey : keyNumber (s.getV x) with
  | none =>
    simp only [execSkp, hkey]
    exact answers_raise he hbad
  | some k =>
    simp only [execSkp, hkey]
    exact answers_next (h k (keyNumber_eq_some.mp hkey))

theorem execSknp_answers (x : Reg) (s : State) (he : errors .invalidKeyIndex) (hbad : P s)
    (h : ∀ k : Key, (s.getV x).toNat = k.val → P (s.skipIf (!s.keys[k.val]))) : Answers P errors (execSknp x s) := by
  cases hkey : keyNumber (s.getV x) with
  | none =>
    simp only [execSknp, hkey]
    exact answers_raise he hbad
  | some k =>
    simp only [execSknp, hkey]
    exact answers_next (h k (keyNumber_eq_some.mp hkey))

theorem execLdVxK_answers (x : Reg) (s : State)
    (hpressed : ∀ k : Key, s.keys[k.val] = true → P (s.setV x (keyByte k)))
    (hnone : (∀ k : Key, s.keys[k.val] = false) → P (s.jump (s.pc - 2))) : Answers P errors (execLdVxK x s) := by
  cases hkey : s.lowestKey with
  | none =>
    simp only [execLdVxK, hkey]
    exact answers_next (hnone (State.lowestKey_eq_none.mp hkey))
  | some k =>
    simp only [execLdVxK, hkey]
    exact answers_next (hpressed k (State.lowestKey_eq_some.mp hkey).1)

/-- EXECUTE fails in its fetch, fails in decoding past the word, or runs the instruction past it (R173). -/
theorem executeCommand_answers (rnd : Option Byte) (s : State)
    (hfetch : 4095 ≤ s.pc.toNat → errors .memoryOutOfBounds ∧ P s)
    (hdecode : s.pc.toNat ≤ 4094 → errors .unknownOpcode ∧ P (s.enter rnd))
    (hexec : s.pc.toNat ≤ 4094 → ∀ i, Answers P errors (exec i (s.enter rnd))) :
    Answers P errors (executeCommand rnd s) := by
  obtain ⟨hnone, hrun⟩ | ⟨hi, lo, hsome, hrun⟩ := executeCommand_cases rnd s
  · obtain ⟨he, h⟩ := hfetch (State.fetchBytes_eq_none.mp hnone)
    exact hrun ▸ answers_raise he h
  · have hpc : s.pc.toNat ≤ 4094 := by
      by_contra hgt
      exact nomatch hsome.symm.trans (State.fetchBytes_eq_none.mpr (by omega))
    obtain ⟨e, -, hrun⟩ | ⟨i, -, hrun⟩ := hrun
    · obtain ⟨he, h⟩ := hdecode hpc
      exact hrun ▸ answers_raise he h
    · exact hrun ▸ hexec hpc i

theorem setKeyCommand_answers (index : Byte) (pressed : Bool) (s : State) (he : errors .invalidKeyIndex) (hbad : P s)
    (h : ∀ k : Key, P { s with keys := s.keys.set k.val pressed }) :
    Answers P errors (setKeyCommand index pressed s) := by
  cases hkey : keyNumber index with
  | none =>
    simp only [setKeyCommand, hkey]
    exact answers_raise he hbad
  | some k =>
    simp only [setKeyCommand, hkey]
    exact answers_next (h k)

end

end Sys2Proof.Claims
end

section
/-! SUPPORT. What DRW does, in the terms of the statements: the rows that lie in memory are drawn, and the flag is
written if all of them do (spec/43_display.md R141, R194). -/

namespace Sys2Proof.Claims

open Sys2Proof.Machine

theorem getMsbD_of_lt_eight (b : Byte) {c : Nat} (h : c < 8) : b.getMsbD c = b.getLsbD (7 - c) := by
  simp [BitVec.getMsbD, h]

/-- A row of the model's sprite lands on a cell exactly when one of its 1 bits does (R141). -/
theorem rowLands_iff (s : State) (x y : Byte) (r : Nat) (k : Fin 2048) :
    rowLands s x y r k = true ↔ ∃ c, c < 8 ∧ SpriteBitOn s x y r c k := by
  rw [rowLands, byteLands_iff]
  refine exists_congr fun c => and_congr_right fun hc => ?_
  rw [getMsbD_of_lt_eight _ hc, SpriteBitOn, Fin.ext_iff, cellOf_val, eq_comm (a := k.val)]

theorem spriteCovers_iff_rowLands (s : State) (x y : Byte) (n : Nat) (k : Fin 2048) :
    SpriteCovers s x y n k ↔ ∃ r, r < n ∧ rowLands s x y r k = true := by
  refine exists_congr fun r => ?_
  rw [rowLands_iff]
  exact ⟨fun ⟨c, hr, hc⟩ => ⟨hr, c, hc⟩, fun ⟨hr, c, hc⟩ => ⟨c, hr, hc⟩⟩

/-- A sprite is its bytes in memory, from `I` upward. -/
theorem spriteCovers_congr {s t : State} (hmem : t.mem = s.mem) (hi : t.i = s.i) (x y : Byte) (n : Nat)
    (k : Fin 2048) : SpriteCovers t x y n k ↔ SpriteCovers s x y n k := by
  simp only [SpriteCovers, SpriteBitOn, hmem, hi]

/-- A draw fails at its first row past memory, with nothing more drawn (R194). -/
theorem drawRows_of_not_in_memory (x y : Byte) {rows : List Nat} (hit : Bool) (s : State) (hrows : rows ≠ [])
    (h : ∀ r ∈ rows, 4096 ≤ s.i.toNat + r) : drawRows x y rows hit s = .fault (.memoryOutOfBounds s) := by
  cases rows with
  | nil => exact absurd rfl hrows
  | cons r rows => simp only [drawRows, s.readMem_of_ge (h r List.mem_cons_self), raise, Fault.of, State.effAddr]

/-- How many of `n` bytes from `I` upward lie in memory. -/
def rowsInMemory (s : State) (n : Nat) : Nat := min n (4096 - s.i.toNat)

theorem rowsInMemory_eq_iff (s : State) (n : Nat) : rowsInMemory s n = n ↔ n = 0 ∨ s.i.toNat + n ≤ 4096 := by
  rw [rowsInMemory]
  omega

/-- The state after a draw that goes on: a new screen, then the flag. -/
def drawn (s : State) (screen : FrameBuffer) (hit : Bool) : State := { s with fb := screen }.setFlag hit

section
variable (s : State) (screen : FrameBuffer) (hit : Bool)

@[simp] theorem drawn_pc : (drawn s screen hit).pc = s.pc := rfl
@[simp] theorem drawn_stack : (drawn s screen hit).stack = s.stack := rfl
@[simp] theorem drawn_sp : (drawn s screen hit).sp = s.sp := rfl
@[simp] theorem drawn_mem : (drawn s screen hit).mem = s.mem := rfl

@[simp] theorem getV_drawn_vf :
    (drawn s screen hit).getV 15 = flagByte hit := State.getV_setFlag_vf _ hit

theorem getV_drawn_ne {r : Reg} (h : r ≠ 15) :
    (drawn s screen hit).getV r = s.getV r := State.getV_setFlag_ne { s with fb := screen } hit h

theorem sameRegsExcept_drawn :
    SameRegsExcept [15] s (drawn s screen hit) :=
  fun _ hr => getV_drawn_ne s screen hit (List.ne_of_not_mem_cons hr)

theorem sameExcept_drawn :
    SameExcept [.fb, .regs] s (drawn s screen hit) := by
  rw [drawn]
  exact sameExcept_of_fields

end

/-- All that DRW can do: the rows in memory toggle their cells, and the flag of the collision is written if no row is
left (R141, R194, R198). -/
theorem exec_drw_spec (x y : Reg) (n : BitVec 4) (s : State) : ∃ (screen : FrameBuffer) (hit : Bool),
    exec (.drw x y n) s =
      (if rowsInMemory s n.toNat = n.toNat then .next (drawn s screen hit)
        else .fault (.memoryOutOfBounds { s with fb := screen })) ∧
    (∀ k, screen.pixel k ≠ s.fb.pixel k ↔ SpriteCovers s (s.getV x) (s.getV y) (rowsInMemory s n.toNat) k) ∧
    (hit = true ↔
      ∃ k, SpriteCovers s (s.getV x) (s.getV y) (rowsInMemory s n.toNat) k ∧ s.fb.pixel k = true) := by
  have hle : rowsInMemory s n.toNat ≤ n.toNat := Nat.min_le_left ..
  have hbound : rowsInMemory s n.toNat = 0 ∨ s.i.toNat + 0 + rowsInMemory s n.toNat ≤ 4096 := by
    rw [rowsInMemory]
    omega
  have hsplit : List.range n.toNat =
      List.range' 0 (rowsInMemory s n.toNat) ++
        List.range' (rowsInMemory s n.toNat) (n.toNat - rowsInMemory s n.toNat) := by
    have happend := List.range'_append_1 (s := 0) (m := rowsInMemory s n.toNat) (n := n.toNat - rowsInMemory s n.toNat)
    rw [Nat.zero_add, Nat.add_sub_cancel' hle] at happend
    rw [List.range_eq_range', happend]
  obtain ⟨screen, hit, hdraw, hcells, hflag⟩ := drawRows_spec (s.getV x) (s.getV y)
    (List.range' (rowsInMemory s n.toNat) (n.toNat - rowsInMemory s n.toNat)) (rowsInMemory s n.toNat) 0 false s
    (by omega) hbound
  refine ⟨screen, hit, ?_, fun k => ?_, ?_⟩
  · change drawRows _ _ (List.range n.toNat) false s = _
    rw [hsplit, hdraw]
    split_ifs with hall
    · rw [hall, Nat.sub_self]
      rfl
    · refine drawRows_of_not_in_memory _ _ _ _ ?_ fun r hr => ?_
      · simp
        omega
      · have hr' := (List.mem_range'_1.mp hr).1
        change 4096 ≤ s.i.toNat + r
        rw [rowsInMemory] at hall hr'
        omega
  · simp only [hcells k, spriteCovers_iff_rowLands, Nat.zero_le, Nat.zero_add, true_and]
  · simp only [hflag, spriteCovers_iff_rowLands, Nat.zero_le, Nat.zero_add, true_and, Bool.false_eq_true, false_or]
    exact ⟨fun ⟨r, k, hr, hlands, hlit⟩ => ⟨k, ⟨r, hr, hlands⟩, hlit⟩,
      fun ⟨k, ⟨r, hr, hlands⟩, hlit⟩ => ⟨r, k, hr, hlands, hlit⟩⟩

theorem execDrw_answers {P : State → Prop} {errors : Error → Prop} (x y : Reg) (n : BitVec 4) (s : State)
    (he : errors .memoryOutOfBounds)
    (h : ∀ screen : FrameBuffer,
      (∀ k, ¬ SpriteCovers s (s.getV x) (s.getV y) (rowsInMemory s n.toNat) k → screen.pixel k = s.fb.pixel k) →
      P { s with fb := screen } ∧ ∀ hit, P (drawn s screen hit)) :
    Answers P errors (exec (.drw x y n) s) := by
  obtain ⟨screen, hit, hdraw, hcells, -⟩ := exec_drw_spec x y n s
  have ⟨hfault, hnext⟩ := h screen fun k hk => not_not.mp fun hne => hk ((hcells k).mp hne)
  rw [hdraw]
  split
  · exact answers_next (hnext hit)
  · exact answers_raise he hfault

end Sys2Proof.Claims
end

section
/-! SUPPORT. The invariant of the machine through one instruction and one step (spec/10_state.md R16, R17; log 20). -/

namespace Sys2Proof.Machine

open Sys2Proof.Claims

/-- The invariant speaks of `PC`, the stack, `SP` and memory only. -/
theorem State.Inv.congr {s t : State} (h : s.Inv) (hpc : t.pc = s.pc := by simp) (hstack : t.stack = s.stack := by simp)
    (hsp : t.sp = s.sp := by simp) (hmem : t.mem = s.mem := by simp) : t.Inv := by
  obtain ⟨hrange, hslots, hwf⟩ := h
  refine ⟨?_, ?_, hmem ▸ hwf⟩
  · rwa [State.pcInRange, hpc]
  · rwa [State.stackInRange, hstack, hsp]

/-- A new `PC` in range keeps the invariant (R16). -/
theorem State.Inv.withPc {s t : State} (h : s.Inv) (hrange : t.pc.toNat ≤ 0x10FE) (hstack : t.stack = s.stack := by simp)
    (hsp : t.sp = s.sp := by simp) (hmem : t.mem = s.mem := by simp) : t.Inv :=
  State.Inv.congr (s := { s with pc := t.pc }) ⟨hrange, h.stackRange, h.memory⟩ rfl hstack hsp hmem

theorem State.Inv.withMem {s : State} (h : s.Inv) {m : Memory} (hm : s.mem.wf = true → m.wf = true) :
    ({ s with mem := m } : State).Inv := ⟨h.pcRange, h.stackRange, hm h.memory⟩

/-- A pushed address of at most 4096 keeps the used slots in range (R17, R83). -/
theorem stackInRange_push {s : State} (h : s.stackInRange) (hpc : s.pc.toNat ≤ 4096) (hfree : s.sp.val < 16)
    (k : Fin 16) (hk : k.val < s.sp.val + 1) : ((s.stack.set s.sp.val s.pc)[k.val]).toNat ≤ 4096 := by
  rw [Vector.getElem_set]
  split_ifs with heq
  · exact hpc
  · exact h k (by omega)

/-- The state in which an instruction executes: the invariant, with `PC` two past an address that can be fetched at
(R173). -/
structure Entered (s : State) : Prop where
  inv    : s.Inv
  pcLow  : 2 ≤ s.pc.toNat
  pcHigh : s.pc.toNat ≤ 4096

theorem entered_enter {s : State} (h : s.Inv) (hpc : s.pc.toNat ≤ 4094) (rnd : Option Byte) : Entered (s.enter rnd) := by
  have hval : (s.enter rnd).pc.toNat = s.pc.toNat + 2 := by
    rw [State.enter_pc, BitVec.toNat_add]
    exact Nat.mod_eq_of_lt (by change s.pc.toNat + 2 < 65536; omega)
  exact ⟨h.withPc (by omega), by omega, by omega⟩

section
variable {s : State} (h : Entered s)
include h

theorem Entered.skipIf (taken : Bool) : (s.skipIf taken).Inv := by
  have hpc := h.pcHigh
  refine h.inv.withPc ?_
  rw [State.skipIf_pc]
  split
  · rw [BitVec.toNat_add]
    exact (Nat.mod_le _ _).trans (by change s.pc.toNat + 2 ≤ 0x10FE; omega)
  · omega

theorem Entered.jump {target : Half} (ht : target.toNat ≤ 0x10FE) : (s.jump target).Inv := h.inv.withPc ht

theorem Entered.ret (hused : 0 < s.sp.val) :
    ({ s with sp := ⟨s.sp.val - 1, by omega⟩, pc := s.stack[s.sp.val - 1] } : State).Inv := by
  have hslots := h.inv.stackRange
  have hnewest := hslots ⟨s.sp.val - 1, by omega⟩ (by change s.sp.val - 1 < s.sp.val; omega)
  exact ⟨hnewest.trans (by decide), fun k (hk : k.val < s.sp.val - 1) => hslots k (by omega), h.inv.memory⟩

theorem Entered.call (nnn : BitVec 12) (hfree : s.sp.val < 16) :
    ({ s with stack := s.stack.set s.sp.val s.pc, sp := ⟨s.sp.val + 1, by omega⟩, pc := zextAddr nnn } : State).Inv :=
  ⟨by change (zextAddr nnn).toNat ≤ 0x10FE; rw [zextAddr_toNat]; omega,
    stackInRange_push h.inv.stackRange h.pcHigh hfree, h.inv.memory⟩

/-- Every instruction keeps the invariant: a case per shape of the instruction. -/
theorem Entered.exec (i : Instr) : Answers State.Inv (fun _ => True) (Machine.exec i s) := by
  have hinv := h.inv
  cases i with
  | nop | cls | ldI | addI | ldF | ldDtVx | ldStVx | ldImm | ldReg | ldVxDt | addImm | orReg | andReg | xorReg | rnd
  | addReg | subReg | subnReg | shr | shl => exact answers_next hinv.congr
  | seImm | sneImm | seReg | sneReg => exact answers_next (h.skipIf _)
  | jp nnn => exact answers_next (h.jump (by rw [zextAddr_toNat]; omega))
  | jpV0 nnn => exact answers_next (h.jump (by rw [offsetTarget_toNat]; omega))
  | ret => exact execRet_answers s trivial hinv h.ret
  | call nnn => exact execCall_answers nnn s trivial hinv (h.call nnn)
  | skp x => exact execSkp_answers x s trivial hinv fun _ _ => h.skipIf _
  | sknp x => exact execSknp_answers x s trivial hinv fun _ _ => h.skipIf _
  | ldVxK x =>
    have hlow := h.pcLow
    have hhigh := h.pcHigh
    exact execLdVxK_answers x s (fun _ _ => hinv.congr) fun _ => h.jump (by bv_omega)
  | drw x y n => exact execDrw_answers x y n s trivial fun _ _ => ⟨hinv.congr, fun _ => hinv.congr⟩
  | ldB | storeRegs => exact storeBytes_answers _ _ s trivial fun _ hwf _ => hinv.withMem hwf
  | loadRegs x => exact loadBytes_answers (regsUpTo_nodup x) _ s trivial fun _ _ => hinv.congr

end

theorem executeCommand_keeps_inv {s : State} (h : s.Inv) (rnd : Option Byte) :
    Answers State.Inv (fun _ => True) (executeCommand rnd s) :=
  executeCommand_answers rnd s (fun _ => ⟨trivial, h⟩) (fun hpc => ⟨trivial, (entered_enter h hpc rnd).inv⟩)
    fun hpc i => (entered_enter h hpc rnd).exec i

theorem resetWithInputs_inv (rnd : Option Byte) (draws : Nat) (pending : List Command) :
    (resetWithInputs rnd draws pending).Inv :=
  ⟨(by decide : (0x200 : Half).toNat ≤ 0x10FE), fun k hk => absurd hk (Nat.not_lt_zero k.val), rfl⟩

theorem command_keeps_inv {s : State} (h : s.Inv) (c : Command) : Answers State.Inv (fun _ => True) (command c s) := by
  cases c with
  | reset => exact answers_next (resetWithInputs_inv ..)
  | load bytes => exact storeBytes_answers _ _ s trivial fun _ hwf _ => h.withMem hwf
  | execute b => exact executeCommand_keeps_inv h (some b)
  | tick => exact answers_next h.congr
  | setKey index pressed => exact setKeyCommand_answers index pressed s trivial h fun _ => h.congr
  | readFb => exact answers_next h

/-- A step is EXECUTE or the driver's next command, so what each of them answers every step answers (R179). -/
theorem step_answers {P : State → Prop} {errors : Error → Prop} {s : State}
    (hexecute : Answers P errors (executeCommand none s))
    (hcommand : ∀ c rest, s.pending = c :: rest → Answers P errors (command c { s with pending := rest })) :
    Answers P errors (step s) := by
  cases hpending : s.pending with
  | nil => exact step_of_nil hpending ▸ hexecute
  | cons c rest => exact step_of_cons hpending ▸ hcommand c rest hpending

theorem step_keeps_inv {s : State} (h : s.Inv) : Answers State.Inv (fun _ => True) (step s) :=
  step_answers (executeCommand_keeps_inv h none) fun c _ _ => command_keeps_inv h.congr c

end Sys2Proof.Machine
end

section
/-! The obligations of the invariant (spec/10_state.md R16, R17). -/

namespace Sys2Proof.Claims

open Sys2Proof.Machine

/-- Settles O8: power-on is RESET with no command listed. -/
theorem resetMeetsTheInvariant : Obligations.ResetMeetsTheInvariant := resetWithInputs_inv none 0 []

/-- Settles O9: the instruction runs with `PC` two past a fetchable address (`Entered`), which is what CALL pushes and
what a skip or a rewind moves `PC` by 2 from. -/
theorem stepKeepsTheInvariant : Obligations.StepKeepsTheInvariant :=
  fun _ h => ⟨fun _ ht => (step_keeps_inv h).next ht, fun _ hf => ((step_keeps_inv h).fault hf).2⟩

end Sys2Proof.Claims
end

section
/-! SUPPORT. What each instruction writes and which errors it raises, by its row of R28's table and of R190's
(spec/10_state.md section 12, spec/60_exceptions.md section 1). -/

namespace Sys2Proof.Claims

open Sys2Proof.Machine

/-- What R28's table says of the state an instruction leaves: the parts it does not list are as before, and of the listed
registers, bytes, slots and cells only the listed ones may differ. -/
structure WritesOnlyListed (i : Instr) (s t : State) : Prop where
  parts : SameExcept (partsWritten i s) s t
  regs  : ∀ r, regsWritten i r = false → t.getV r = s.getV r
  bytes : ∀ a, (∀ k, k < bytesWritten i → a ≠ s.effAddr k) → t.readMem a = s.readMem a
  slots : ∀ nnn, i = .call nnn → ∀ k : Fin 16, k.val ≠ s.sp.val → t.stack[k.val] = s.stack[k.val]
  cells : ∀ x y n, i = .drw x y n → ∀ k : Fin 2048,
    ¬ SpriteCovers s (s.getV x) (s.getV y) (rowsInMemory s n.toNat) k → t.fb[k.val] = s.fb[k.val]

section
variable {i : Instr} {s t : State}

/-- The frame says it all of a part that is not listed, so the finer clauses are left for the listed parts. -/
theorem writesOnlyListed_of_parts (hparts : SameExcept (partsWritten i s) s t)
    (hregs : Part.regs ∈ partsWritten i s → ∀ r, regsWritten i r = false → t.getV r = s.getV r := by
      intro hlisted
      simp [partsWritten] at hlisted)
    (hbytes : Part.mem ∈ partsWritten i s →
        ∀ a, (∀ k, k < bytesWritten i → a ≠ s.effAddr k) → t.readMem a = s.readMem a := by
      intro hlisted
      simp [partsWritten] at hlisted)
    (hslots : Part.stack ∈ partsWritten i s →
        ∀ k : Fin 16, k.val ≠ s.sp.val → t.stack[k.val] = s.stack[k.val] := by
      intro hlisted
      simp [partsWritten] at hlisted)
    (hcells : ∀ x y n, i = .drw x y n → ∀ k : Fin 2048,
      ¬ SpriteCovers s (s.getV x) (s.getV y) (rowsInMemory s n.toNat) k → t.fb[k.val] = s.fb[k.val] := by nofun) :
    WritesOnlyListed i s t where
  parts := hparts
  regs r hr := by
    by_cases hlisted : Part.regs ∈ partsWritten i s
    · exact hregs hlisted r hr
    · exact hparts .regs hlisted r
  bytes a ha := by
    by_cases hlisted : Part.mem ∈ partsWritten i s
    · exact hbytes hlisted a ha
    · exact hparts .mem hlisted a
  slots _ _ k hk := by
    by_cases hlisted : Part.stack ∈ partsWritten i s
    · exact hslots hlisted k hk
    · exact hparts .stack hlisted k
  cells := hcells

theorem writesOnlyListed_refl (i : Instr) (s : State) : WritesOnlyListed i s s :=
  writesOnlyListed_of_parts (sameExcept_refl _ s) (fun _ _ _ => rfl) (fun _ _ _ => rfl) (fun _ _ _ => rfl)
    fun _ _ _ _ _ _ => rfl

end

/-! ## Registers -/

theorem getV_setV_of_beq_eq_false (s : State) {x r : Reg} (b : Byte) (h : (r == x) = false) :
    (s.setV x b).getV r = s.getV r :=
  State.getV_setV_ne s b (beq_eq_false_iff_ne.mp h)

theorem getV_setResultAndFlag_of_beq_eq_false (s : State) {x r : Reg} (result : Byte) (flag : Bool)
    (h : (r == x || r == 15) = false) : (s.setResultAndFlag x result flag).getV r = s.getV r := by
  obtain ⟨hx, hvf⟩ := Bool.or_eq_false_iff.mp h
  exact State.getV_setResultAndFlag_ne s result flag (beq_eq_false_iff_ne.mp hx) (beq_eq_false_iff_ne.mp hvf)

/-! ## Skips -/

/-- A skip needs `PC` listed only where it is taken (R28, R89). -/
theorem sameExcept_skipIf_of_taken {changed : List Part} (s : State) {taken : Bool}
    (h : taken = true → Part.pc ∈ changed) : SameExcept changed s (s.skipIf taken) := by
  cases taken with
  | false => exact sameExcept_refl _ s
  | true => exact (sameExcept_jump s _).mono (by simpa using h rfl)

/-! ## Stored bytes -/

/-- A byte outside the stored ones is as before. -/
theorem read_of_not_stored {m : Memory} {bytes : List Byte} {a c : Nat} {s : State}
    (hread : m.read c = (if a ≤ c ∧ c < 4096 then bytes[c - a]? else none).getD (s.mem.read c))
    (h : c < a ∨ a + bytes.length ≤ c) : m.read c = s.mem.read c := by
  rw [hread]
  split
  · rw [List.getElem?_eq_none (by omega), Option.getD_none]
  · rfl

theorem readMem_withMem_of_read_eq {s : State} {m : Memory} {a : Nat} (h : m.read a = s.mem.read a) :
    ({ s with mem := m } : State).readMem a = s.readMem a := by
  simp only [State.readMem, h]

/-- The store of an instruction that lists as many bytes from `I` upward as it stores. -/
theorem storeBytes_writesOnlyListed {i : Instr} {s : State} {bytes : List Byte} (hlength : bytes.length = bytesWritten i)
    (hparts : partsWritten i s = [.mem]) (herr : Error.memoryOutOfBounds ∈ errorsRaised i)
    (hdraw : ∀ x y n, i ≠ .drw x y n) :
    Answers (WritesOnlyListed i s) (· ∈ errorsRaised i) (storeBytes .memoryOutOfBounds bytes (s.effAddr 0) s) := by
  refine storeBytes_answers _ _ s herr fun m _ hread => writesOnlyListed_of_parts ?_ ?_ (fun _ a ha => ?_) ?_ ?_
  · exact hparts ▸ sameExcept_mem s m
  · simp [hparts]
  · have hout : a < s.effAddr 0 ∨ s.effAddr 0 + bytes.length ≤ a := by
      by_contra hin
      exact ha (a - s.effAddr 0) (by omega) (by simp only [State.effAddr] at hin ⊢; omega)
    exact readMem_withMem_of_read_eq (read_of_not_stored (hread a) hout)
  · simp [hparts]
  · exact fun x y n hi => absurd hi (hdraw x y n)

/-! ## Every instruction -/

theorem execCall_writesOnlyListed (nnn : BitVec 12) (s : State) :
    Answers (WritesOnlyListed (.call nnn) s) (· ∈ errorsRaised (.call nnn)) (execCall nnn s) := by
  refine execCall_answers nnn s (List.mem_singleton_self _) (writesOnlyListed_refl _ s) fun hfree => ?_
  refine writesOnlyListed_of_parts (sameExcept_of_fields (changed := [.stack, .sp, .pc])) (hslots := fun _ k hk => ?_)
  exact Vector.getElem_set_ne hfree k.isLt (Ne.symm hk)

theorem execLdVxK_writesOnlyListed (x : Reg) (s : State) :
    Answers (WritesOnlyListed (.ldVxK x) s) (· ∈ errorsRaised (.ldVxK x)) (execLdVxK x s) := by
  refine execLdVxK_answers x s (fun k hk => ?_) fun hnone => ?_
  · have hparts : partsWritten (.ldVxK x) s = [.regs] := if_pos ⟨k, hk⟩
    refine writesOnlyListed_of_parts (hparts ▸ sameExcept_setV s x _)
      (fun _ _ => getV_setV_of_beq_eq_false s _) ?_ ?_
    all_goals simp [hparts]
  · have hparts : partsWritten (.ldVxK x) s = [.pc] := if_neg (by simp [hnone])
    refine writesOnlyListed_of_parts (hparts ▸ sameExcept_jump s _) ?_ ?_ ?_
    all_goals simp [hparts]

theorem execLoadRegs_writesOnlyListed (x : Reg) (s : State) :
    Answers (WritesOnlyListed (.loadRegs x) s) (· ∈ errorsRaised (.loadRegs x)) (execLoadRegs x s) := by
  refine loadBytes_answers (regsUpTo_nodup x) _ s (List.mem_singleton_self _) fun v hframe => ?_
  refine writesOnlyListed_of_parts (sameExcept_regFile s v) fun _ r hr => hframe r ?_
  rw [mem_regsUpTo]
  exact of_decide_eq_false hr

theorem execDrw_writesOnlyListed (x y : Reg) (n : BitVec 4) (s : State) :
    Answers (WritesOnlyListed (.drw x y n) s) (· ∈ errorsRaised (.drw x y n)) (exec (.drw x y n) s) := by
  refine execDrw_answers x y n s (List.mem_singleton_self _) fun screen hcells => ⟨?_, fun hit => ?_⟩
  · refine writesOnlyListed_of_parts (sameExcept_frameBuffer s screen |>.mono (by simp [partsWritten]))
      (fun _ _ _ => rfl) (hcells := ?_)
    rintro x y n ⟨⟩ k hk
    exact hcells k hk
  · refine writesOnlyListed_of_parts (sameExcept_drawn s screen hit) (fun _ r hr => ?_) (hcells := ?_)
    · exact getV_drawn_ne s screen hit (beq_eq_false_iff_ne.mp hr)
    · rintro x y n ⟨⟩ k hk
      exact hcells k hk

theorem exec_writesOnlyListed (i : Instr) (s : State) :
    Answers (WritesOnlyListed i s) (· ∈ errorsRaised i) (exec i s) := by
  cases i with
  | nop => exact answers_next (writesOnlyListed_refl _ s)
  | cls => exact answers_next (writesOnlyListed_of_parts (sameExcept_frameBuffer s _))
  | jp | jpV0 => exact answers_next (writesOnlyListed_of_parts (sameExcept_jump s _))
  | ldI | addI | ldF => exact answers_next (writesOnlyListed_of_parts (sameExcept_index s _))
  | ldDtVx => exact answers_next (writesOnlyListed_of_parts (sameExcept_delay s _))
  | ldStVx => exact answers_next (writesOnlyListed_of_parts (sameExcept_sound s _))
  | ldImm | ldReg | ldVxDt | addImm | orReg | andReg | xorReg =>
    exact answers_next
      (writesOnlyListed_of_parts (sameExcept_setV s _ _) fun _ _ => getV_setV_of_beq_eq_false s _)
  | rnd => exact answers_next (writesOnlyListed_of_parts (sameExcept_of_fields (changed := [.regs, .draws]))
      fun _ _ => getV_setV_of_beq_eq_false s _)
  | addReg | subReg | subnReg | shr | shl =>
    exact answers_next (writesOnlyListed_of_parts (sameExcept_setResultAndFlag s _ _ _)
      fun _ _ => getV_setResultAndFlag_of_beq_eq_false s _ _)
  | seImm | sneImm | seReg | sneReg =>
    exact answers_next (writesOnlyListed_of_parts (sameExcept_skipIf_of_taken s (by simp [partsWritten])))
  | ret =>
    exact execRet_answers s (List.mem_singleton_self _) (writesOnlyListed_refl _ s) fun _ =>
      writesOnlyListed_of_parts (sameExcept_of_fields (changed := [.sp, .pc]))
  | call nnn => exact execCall_writesOnlyListed nnn s
  | skp x =>
    refine execSkp_answers x s (List.mem_singleton_self _) (writesOnlyListed_refl _ s) fun k hk =>
      writesOnlyListed_of_parts (sameExcept_skipIf_of_taken s fun hpressed => ?_)
    have hparts : partsWritten (.skp x) s = [.pc] := if_pos ⟨k, hk, hpressed⟩
    exact hparts ▸ List.mem_singleton_self _
  | sknp x =>
    refine execSknp_answers x s (List.mem_singleton_self _) (writesOnlyListed_refl _ s) fun k hk =>
      writesOnlyListed_of_parts (sameExcept_skipIf_of_taken s fun hclear => ?_)
    have hparts : partsWritten (.sknp x) s = [.pc] := if_pos ⟨k, hk, by simpa using hclear⟩
    exact hparts ▸ List.mem_singleton_self _
  | ldVxK x => exact execLdVxK_writesOnlyListed x s
  | drw x y n => exact execDrw_writesOnlyListed x y n s
  | ldB x => exact storeBytes_writesOnlyListed rfl rfl (List.mem_singleton_self _) nofun
  | storeRegs x =>
    exact storeBytes_writesOnlyListed (valuesUpTo_length s x) rfl (List.mem_singleton_self _) nofun
  | loadRegs x => exact execLoadRegs_writesOnlyListed x s

/-! ## Every step -/

theorem exec_answers (i : Instr) (s : State) : Answers (fun _ => True) (fun _ => True) (exec i s) :=
  (exec_writesOnlyListed i s).mono (fun _ _ => trivial) fun _ _ => trivial

theorem executeCommand_answers_any (rnd : Option Byte) (s : State) :
    Answers (fun _ => True) (fun _ => True) (executeCommand rnd s) :=
  executeCommand_answers rnd s (fun _ => ⟨trivial, trivial⟩) (fun _ => ⟨trivial, trivial⟩) fun _ i => exec_answers i _

theorem command_answers (c : Command) (s : State) : Answers (fun _ => True) (fun _ => True) (command c s) := by
  cases c with
  | reset | tick | readFb => exact trivial
  | load bytes => exact storeBytes_answers _ _ s trivial fun _ _ _ => trivial
  | execute b => exact executeCommand_answers_any (some b) s
  | setKey index pressed => exact setKeyCommand_answers index pressed s trivial trivial fun _ => trivial

theorem step_answers_any (s : State) : Answers (fun _ => True) (fun _ => True) (step s) :=
  step_answers (executeCommand_answers_any none s) fun c _ _ => command_answers c _

/-! ## The flag (R12) -/

/-- The instructions that write VF as a flag: the last thing they write is a flag byte. -/
theorem exists_flagByte_of_alu {i : Instr} {s t : State} (h : exec i s = .next t)
    (hi : ∃ x y, i = .addReg x y ∨ i = .subReg x y ∨ i = .shr x y ∨ i = .subnReg x y ∨ i = .shl x y) :
    ∃ flag, t.getV 15 = flagByte flag := by
  obtain ⟨x, y, rfl | rfl | rfl | rfl | rfl⟩ := hi <;> cases h <;> exact ⟨_, State.getV_setResultAndFlag_vf s x _ _⟩

theorem exists_flagByte_of_drw {x y : Reg} {n : BitVec 4} {s t : State} (h : exec (.drw x y n) s = .next t) :
    ∃ flag, t.getV 15 = flagByte flag := by
  obtain ⟨screen, hit, hdraw, -, -⟩ := exec_drw_spec x y n s
  rw [h] at hdraw
  split at hdraw <;> cases hdraw
  exact ⟨hit, getV_drawn_vf s screen hit⟩

end Sys2Proof.Claims
end

section
/-! The obligations over all instructions: what they write, which errors they raise, that none is refused, and the flag
(spec/10_state.md R12, R28; spec/60_exceptions.md R190). -/

namespace Sys2Proof.Claims

open Sys2Proof.Machine

/-- Settles O11: what answers is no refusal. -/
theorem nothingIsRefused : Obligations.NothingIsRefused :=
  ⟨fun i s => (exec_answers i s).ne_refused, fun s => (step_answers_any s).ne_refused⟩

/-- Settles O12: `exec_writesOnlyListed` is the case split over the instructions. -/
theorem instructionsWriteOnlyWhatTheyList : Obligations.InstructionsWriteOnlyWhatTheyList := by
  intro i s t ht
  obtain ⟨hparts, hregs, hbytes, hslots, hcells⟩ := (exec_writesOnlyListed i s).leaves ht
  exact ⟨hparts, hregs, hbytes, hslots, hcells⟩

/-- Settles O13: the same case split carries the row of R190's table. -/
theorem instructionsRaiseOnlyTheirErrors : Obligations.InstructionsRaiseOnlyTheirErrors :=
  fun i s _ hf => ((exec_writesOnlyListed i s).fault hf).1

/-- Settles O14. -/
theorem flagIsZeroOrOneAndWrittenByFlagInstructionsOnly :
    Obligations.FlagIsZeroOrOneAndWrittenByFlagInstructionsOnly := by
  refine fun i s t ht => ⟨fun hflag => ?_, ((exec_writesOnlyListed i s).next ht).regs 15⟩
  obtain ⟨flag, hvf⟩ : ∃ flag, t.getV 15 = flagByte flag := by
    obtain halu | ⟨x, y, n, rfl⟩ := hflag
    · exact exists_flagByte_of_alu ht halu
    · exact exists_flagByte_of_drw ht
  exact hvf ▸ flagByte_eq_zero_or_one flag

end Sys2Proof.Claims
end

section
/-! SUPPORT. A word that a row of the opcode map accepts is the word of an instruction of that row
(spec/30_encoding.md R64, R65). -/

namespace Sys2Proof.Claims

open Sys2Proof.Machine

/-! ## The fixed fields of a masked word -/

section
variable {w mask pattern : Half} (h : w &&& mask = pattern)
include h

/-- Bits that the mask keeps are the pattern's. -/
theorem extractLsb'_of_masked {lo len : Nat} (hmask : mask.extractLsb' lo len = BitVec.allOnes len) :
    w.extractLsb' lo len = pattern.extractLsb' lo len := by
  rw [← h, BitVec.extractLsb'_and, hmask, BitVec.and_allOnes]

theorem nibble_of_masked {lo : Nat} {digit : BitVec 4} (hmask : nibble mask lo = BitVec.allOnes 4)
    (hpattern : nibble pattern lo = digit) : (nibble w lo).toNat = digit.toNat :=
  congrArg BitVec.toNat ((extractLsb'_of_masked h hmask).trans hpattern)

theorem fieldImmNN_of_masked {minor : Byte} (hmask : fieldImmNN mask = BitVec.allOnes 8)
    (hpattern : fieldImmNN pattern = minor) : (fieldImmNN w).toNat = minor.toNat :=
  congrArg BitVec.toNat ((extractLsb'_of_masked h hmask).trans hpattern)

theorem eq_pattern_of_masked (hmask : mask = BitVec.allOnes 16) : w = pattern := by
  rwa [hmask, BitVec.and_allOnes] at h

end

/-! ## The instruction of a row with the operands of a word -/

/-- The instruction with its operands read from a word's fields (R61, R62). -/
def withFieldsOf (w : Half) : Instr → Instr
  | .nop => .nop
  | .cls => .cls
  | .ret => .ret
  | .jp _ => .jp (fieldImmNNN w)
  | .call _ => .call (fieldImmNNN w)
  | .seImm _ _ => .seImm (fieldRegX w) (fieldImmNN w)
  | .sneImm _ _ => .sneImm (fieldRegX w) (fieldImmNN w)
  | .seReg _ _ => .seReg (fieldRegX w) (fieldRegY w)
  | .ldImm _ _ => .ldImm (fieldRegX w) (fieldImmNN w)
  | .addImm _ _ => .addImm (fieldRegX w) (fieldImmNN w)
  | .ldReg _ _ => .ldReg (fieldRegX w) (fieldRegY w)
  | .orReg _ _ => .orReg (fieldRegX w) (fieldRegY w)
  | .andReg _ _ => .andReg (fieldRegX w) (fieldRegY w)
  | .xorReg _ _ => .xorReg (fieldRegX w) (fieldRegY w)
  | .addReg _ _ => .addReg (fieldRegX w) (fieldRegY w)
  | .subReg _ _ => .subReg (fieldRegX w) (fieldRegY w)
  | .shr _ _ => .shr (fieldRegX w) (fieldRegY w)
  | .subnReg _ _ => .subnReg (fieldRegX w) (fieldRegY w)
  | .shl _ _ => .shl (fieldRegX w) (fieldRegY w)
  | .sneReg _ _ => .sneReg (fieldRegX w) (fieldRegY w)
  | .ldI _ => .ldI (fieldImmNNN w)
  | .jpV0 _ => .jpV0 (fieldImmNNN w)
  | .rnd _ _ => .rnd (fieldRegX w) (fieldImmNN w)
  | .drw _ _ _ => .drw (fieldRegX w) (fieldRegY w) (fieldImmN w)
  | .skp _ => .skp (fieldRegX w)
  | .sknp _ => .sknp (fieldRegX w)
  | .ldVxDt _ => .ldVxDt (fieldRegX w)
  | .ldVxK _ => .ldVxK (fieldRegX w)
  | .ldDtVx _ => .ldDtVx (fieldRegX w)
  | .ldStVx _ => .ldStVx (fieldRegX w)
  | .addI _ => .addI (fieldRegX w)
  | .ldF _ => .ldF (fieldRegX w)
  | .ldB _ => .ldB (fieldRegX w)
  | .storeRegs _ => .storeRegs (fieldRegX w)
  | .loadRegs _ => .loadRegs (fieldRegX w)

theorem row_withFieldsOf (w : Half) (i : Instr) : (withFieldsOf w i).row = i.row := by
  cases i <;> rfl

/-- A case per mask of R65: the mask keeps the fixed fields of the format, and the operands are the word's own. -/
theorem encode_withFieldsOf {w : Half} {i : Instr} (h : i.row.accepts w = true) : encode (withFieldsOf w i) = w := by
  cases i with simp only [OpRow.accepts, Instr.row, beq_iff_eq] at h
  | nop | cls | ret => exact (eq_pattern_of_masked h rfl).symm
  | jp | call | ldI | jpV0 => exact wordNNN_of_fields (nibble_of_masked h rfl rfl)
  | seImm | sneImm | ldImm | addImm | rnd => exact wordXNN_of_fields (nibble_of_masked h rfl rfl)
  | drw => exact wordXYN_of_fields (nibble_of_masked h rfl rfl) rfl
  | seReg | sneReg | ldReg | orReg | andReg | xorReg | addReg | subReg | shr | subnReg | shl =>
    exact wordXYN_of_fields (nibble_of_masked h rfl rfl) (nibble_of_masked (lo := 0) h rfl rfl)
  | skp | sknp | ldVxDt | ldVxK | ldDtVx | ldStVx | addI | ldF | ldB | storeRegs | loadRegs =>
    exact wordX_of_fields (nibble_of_masked h rfl rfl) (fieldImmNN_of_masked h rfl rfl)

/-! ## The rows and the decoder -/

/-- One instruction of every row, in the order of the opcode map. -/
def rowRepresentatives : List Instr :=
  [.nop, .cls, .ret, .jp 0, .call 0, .seImm 0 0, .sneImm 0 0, .seReg 0 0, .ldImm 0 0, .addImm 0 0, .sneReg 0 0, .ldI 0,
    .jpV0 0, .rnd 0 0, .drw 0 0 0, .ldReg 0 0, .orReg 0 0, .andReg 0 0, .xorReg 0 0, .addReg 0 0, .subReg 0 0, .shr 0 0,
    .subnReg 0 0, .shl 0 0, .skp 0, .sknp 0, .ldVxDt 0, .ldVxK 0, .ldDtVx 0, .ldStVx 0, .addI 0, .ldF 0, .ldB 0,
    .storeRegs 0, .loadRegs 0]

theorem opRows_eq_map_row : opRows = rowRepresentatives.map Instr.row := rfl

theorem exists_row_eq {r : OpRow} (h : r ∈ opRows) : ∃ i : Instr, i.row = r := by
  rw [opRows_eq_map_row] at h
  obtain ⟨i, -, hi⟩ := List.mem_map.mp h
  exact ⟨i, hi⟩

/-- A word that a row accepts decodes to an instruction of that row (R64, R65). -/
theorem exists_decodeWord_of_accepts {r : OpRow} {w : Half} (hr : r ∈ opRows) (h : r.accepts w = true) :
    ∃ i, decodeWord w = .ok i ∧ i.row = r := by
  obtain ⟨i, rfl⟩ := exists_row_eq hr
  have hdecode := decodeWord_of_decodeTree_some (decodeTree_encode (withFieldsOf w i))
  rw [encode_withFieldsOf h] at hdecode
  exact ⟨_, hdecode, row_withFieldsOf w i⟩

theorem row_unique {r r' : OpRow} {w : Half} (hr : r ∈ opRows) (hr' : r' ∈ opRows) (h : r.accepts w = true)
    (h' : r'.accepts w = true) : r = r' := by
  obtain ⟨i, hi, rfl⟩ := exists_decodeWord_of_accepts hr h
  obtain ⟨j, hj, rfl⟩ := exists_decodeWord_of_accepts hr' h'
  cases hi.symm.trans hj
  rfl

end Sys2Proof.Claims
end

section
/-! The obligations of the opcode map (spec/30_encoding.md R64 to R66). -/

namespace Sys2Proof.Claims

open Sys2Proof.Machine

/-- Settles O1: each word is the word `encode` gives the instruction, and the two that decode to nothing end on nibbles
that are no minor opcode. -/
theorem writtenWordsDecode : Obligations.WrittenWordsDecode :=
  ⟨decodes_of_word_eq_encode rfl, decodes_of_word_eq_encode rfl, decodes_of_word_eq_encode rfl,
    decodes_of_word_eq_encode rfl, decodes_of_word_eq_encode rfl, decodes_of_word_eq_encode rfl,
    decodes_of_word_eq_encode rfl, decodes_of_word_eq_encode rfl, decodes_of_word_eq_encode rfl,
    decodes_of_word_eq_encode rfl, decodes_of_word_eq_encode rfl, decodes_of_word_eq_encode rfl,
    decodes_of_word_eq_encode rfl, decodeWord_of_decodeTree_none rfl, decodeWord_of_decodeTree_none rfl⟩

/-- Settles O4: a word that two rows accept decodes to an instruction of either, and it decodes to one only. -/
theorem decodeFollowsOpcodeMap : Obligations.DecodeFollowsOpcodeMap := by
  refine ⟨rfl, fun w => ⟨fun ⟨i, hi⟩ => ?_, fun ⟨r, hr, h⟩ => ?_⟩, fun w r hr r' hr' => row_unique hr hr',
    fun w i hi => ⟨row_mem_opRows i, row_accepts_of_decodeWord hi⟩⟩
  · exact ⟨i.row, row_mem_opRows i, row_accepts_of_decodeWord hi⟩
  · obtain ⟨i, hi, -⟩ := exists_decodeWord_of_accepts hr h
    exact ⟨i, hi⟩

end Sys2Proof.Claims
end

section
/-! SUPPORT. The canonical form of memory is unique (spec/20_memory.md section 1; log 20). -/

namespace Sys2Proof.Claims

open Sys2Proof.Machine

theorem wfFrom_cons_iff {lo a : Nat} {b : Byte} {m : Memory} :
    Memory.wfFrom lo ((a, b) :: m) = true ↔
      lo ≤ a ∧ a < 4096 ∧ b ≠ Memory.unlisted a ∧ Memory.wfFrom (a + 1) m = true := by
  simp [Memory.wfFrom, and_assoc]

theorem read_cons_self (a : Nat) (b : Byte) (m : Memory) : Memory.read ((a, b) :: m) a = b := by
  rw [Memory.read_cons, if_pos rfl]

/-- The first listed address of a canonical memory reads otherwise than in a canonical memory that begins above it. -/
theorem read_ne_of_wfFrom {lo a : Nat} {b : Byte} {m m' : Memory} (h : Memory.wfFrom lo ((a, b) :: m) = true)
    (h' : m'.wfFrom (a + 1) = true) : Memory.read ((a, b) :: m) a ≠ m'.read a := by
  obtain ⟨-, -, hb, -⟩ := wfFrom_cons_iff.mp h
  rwa [read_cons_self, Memory.read_of_lt h' (Nat.lt_succ_self a)]

/-- Canonical memories that read alike have the same first entry, so the rest of each reads alike too. -/
theorem eq_of_wfFrom_of_read_eq : ∀ {m m' : Memory} {lo : Nat}, m.wfFrom lo = true → m'.wfFrom lo = true →
    (∀ a, a < 4096 → m.read a = m'.read a) → m = m'
  | [], [], _, _, _, _ => rfl
  | [], (a, _) :: _, _, _, hm', hread =>
    absurd (hread a (wfFrom_cons_iff.mp hm').2.1).symm (read_ne_of_wfFrom hm' rfl)
  | (a, _) :: _, [], _, hm, _, hread => absurd (hread a (wfFrom_cons_iff.mp hm).2.1) (read_ne_of_wfFrom hm rfl)
  | (a, b) :: m, (a', b') :: m', _, hm, hm', hread => by
    obtain ⟨-, ha, -, htail⟩ := wfFrom_cons_iff.mp hm
    obtain ⟨-, ha', hb', htail'⟩ := wfFrom_cons_iff.mp hm'
    obtain hlt | rfl | hgt := lt_trichotomy a a'
    · exact absurd (hread a ha) (read_ne_of_wfFrom hm (wfFrom_cons_iff.mpr ⟨hlt, ha', hb', htail'⟩))
    · obtain rfl : b = b' := by
        have hfirst := hread a ha
        rwa [read_cons_self, read_cons_self] at hfirst
      have hrest : ∀ c, c < 4096 → Memory.read m c = Memory.read m' c := fun c hc => by
        by_cases hca : a = c
        · subst hca
          rw [Memory.read_of_lt htail (Nat.lt_succ_self a), Memory.read_of_lt htail' (Nat.lt_succ_self a)]
        · have hread' := hread c hc
          rwa [Memory.read_cons, Memory.read_cons, if_neg hca, if_neg hca] at hread'
      rw [eq_of_wfFrom_of_read_eq htail htail' hrest]
    · obtain ⟨-, -, hb, -⟩ := wfFrom_cons_iff.mp hm
      exact absurd (hread a' ha').symm (read_ne_of_wfFrom hm' (wfFrom_cons_iff.mpr ⟨hgt, ha, hb, htail⟩))

end Sys2Proof.Claims
end

section
/-! The obligation of the canonical form of memory (log 20). -/

namespace Sys2Proof.Claims

open Sys2Proof.Machine

/-- Settles O10: an induction along both lists, whose heads agree because they are the least listed addresses. -/
theorem canonicalMemoriesThatReadAlikeAreEqual : Obligations.CanonicalMemoriesThatReadAlikeAreEqual :=
  fun _ _ => eq_of_wfFrom_of_read_eq

end Sys2Proof.Claims
end

section
/-! SUPPORT. The bits that the shifts drop, as numbers (spec/41_alu.md R108, R110). -/

namespace Sys2Proof.Claims

open Sys2Proof.Machine

theorem flagByte_toNat (flag : Bool) : (flagByte flag).toNat = flag.toNat := by
  cases flag <;> rfl

theorem droppedByShr_toNat (b : Byte) : (droppedByShr b).toNat = b.toNat % 2 := by
  rw [droppedByShr, BitVec.getLsbD, Nat.testBit_zero]
  obtain hbit | hbit := Nat.mod_two_eq_zero_or_one b.toNat <;> simp [hbit]

theorem droppedByShl_toNat (b : Byte) : (droppedByShl b).toNat = b.toNat / 128 := by
  have hbit : droppedByShl b = decide (128 ≤ b.toNat) := BitVec.msb_eq_decide b
  have hb := b.isLt
  by_cases hlt : 128 ≤ b.toNat
  · simp [hbit, hlt]
    omega
  · simp [hbit, hlt]
    omega

end Sys2Proof.Claims
end

section
/-! The obligations of the shifts and of RND (spec/41_alu.md). -/

namespace Sys2Proof.Claims

open Sys2Proof.Machine

/-- Settles O29: each shift is one result with its flag, the dropped bit as a number. -/
theorem shiftsSetTheDroppedBit : Obligations.ShiftsSetTheDroppedBit := by
  refine fun x y s => ⟨decodes_of_word_eq_encode (ofNat_eq_wordXYN 0x8 x y 0x6),
    decodes_of_word_eq_encode (ofNat_eq_wordXYN 0x8 x y 0xE),
    ⟨_, rfl, fun hx => ?_, ?_, sameRegsExcept_setResultAndFlag s x _ _, sameExcept_setResultAndFlag s x _ _⟩,
    ⟨_, rfl, fun hx => ?_, ?_, sameRegsExcept_setResultAndFlag s x _ _, sameExcept_setResultAndFlag s x _ _⟩⟩
  · rw [State.getV_setResultAndFlag_dest s _ _ hx, BitVec.toNat_ushiftRight, Nat.shiftRight_one]
  · rw [State.getV_setResultAndFlag_vf, flagByte_toNat, droppedByShr_toNat]
  · rw [State.getV_setResultAndFlag_dest s _ _ hx, BitVec.toNat_shiftLeft, Nat.shiftLeft_eq, pow_one, mul_comm]
  · rw [State.getV_setResultAndFlag_vf, flagByte_toNat, droppedByShl_toNat]

/-- Settles O30: a bit outside the mask is cleared whatever the random byte is. -/
theorem randomIsMasked : Obligations.RandomIsMasked := by
  intro x nn s
  have hvalue : (s.setV x (s.randomByte &&& nn)).getV x = s.randomByte &&& nn := State.getV_setV_same s x _
  refine ⟨decodes_of_word_eq_encode (ofNat_eq_wordXNN 0xC x nn), _, rfl, hvalue, rfl, fun b hb => ?_, fun j hj => ?_,
    sameRegsExcept_setV s x _, sameExcept_of_fields⟩
  · have hrandom : s.randomByte = b := by simp only [State.randomByte, hb]
    exact hrandom ▸ hvalue
  · change ((s.setV x (s.randomByte &&& nn)).getV x).getLsbD j = false
    rw [hvalue, BitVec.getLsbD_and, hj, Bool.and_false]

end Sys2Proof.Claims
end

section
/-! SUPPORT. Stores and loads in the terms of the statements: the bytes at their addresses, the others as before, and a
fetch after a store (spec/20_memory.md R43, R53). -/

namespace Sys2Proof.Claims

open Sys2Proof.Machine

/-! ## Stores -/

/-- The state after storing bytes from an address upward: those in the address space are stored, and nothing else has
changed (R43, R198). -/
structure StoredFrom (a : Nat) (bytes : List Byte) (s t : State) : Prop where
  stored : ∀ (j : Nat) (b : Byte), bytes[j]? = some b → a + j < 4096 → t.readMem (a + j) = some b
  others : ∀ c, c < a ∨ a + bytes.length ≤ c → t.readMem c = s.readMem c
  frame  : SameExcept [.mem] s t

theorem storeBytes_storedFrom (e : Error) (bytes : List Byte) (a : Nat) (s : State) : ∃ t, StoredFrom a bytes s t ∧
    storeBytes e bytes a s = if bytes = [] ∨ a + bytes.length ≤ 4096 then .next t else raise e t := by
  obtain ⟨m, hstore, -, hread⟩ := storeBytes_spec e bytes a s
  refine ⟨_, ⟨fun j b hj hbound => ?_, fun c hc => readMem_withMem_of_read_eq (read_of_not_stored (hread c) hc),
    sameExcept_mem s m⟩, hstore⟩
  rw [State.readMem_of_lt _ hbound, hread, if_pos ⟨Nat.le_add_right a j, hbound⟩, Nat.add_sub_cancel_left, hj,
    Option.getD_some]

/-- A store that goes on has stored every byte. -/
theorem storedFrom_of_next {e : Error} {bytes : List Byte} {a : Nat} {s t : State}
    (h : storeBytes e bytes a s = .next t) : StoredFrom a bytes s t ∧ (bytes = [] ∨ a + bytes.length ≤ 4096) := by
  obtain ⟨u, hstored, hstore⟩ := storeBytes_storedFrom e bytes a s
  rw [h] at hstore
  split at hstore
  · cases hstore
    exact ⟨hstored, ‹_›⟩
  · exact nomatch hstore

theorem valuesUpTo_getElem?_of_le (s : State) {x r : Reg} (h : r ≤ x) : (s.valuesUpTo x)[r.val]? = some (s.getV r) := by
  rw [valuesUpTo_getElem?, dif_pos (Fin.le_def.mp h)]

theorem bcdDigits_getElem? (b : Byte) {k : Nat} (hk : k < 3) : (bcdDigits b)[k]? = some (decimalDigit b k) := by
  have hb := b.isLt
  have hhundreds : b.toNat / 10 ^ 2 % 10 = b.toNat / 100 := by omega
  interval_cases k
  · simp only [bcdDigits, decimalDigit, List.getElem?_cons_zero, hhundreds]
  · rfl
  · simp [bcdDigits, decimalDigit]

/-- The digits are digits, and they spell the byte (R123). -/
theorem decimalDigits_spell (b : Byte) :
    (decimalDigit b 0).toNat ≤ 9 ∧ (decimalDigit b 1).toNat ≤ 9 ∧ (decimalDigit b 2).toNat ≤ 9 ∧
    b.toNat = 100 * (decimalDigit b 0).toNat + 10 * (decimalDigit b 1).toNat + (decimalDigit b 2).toNat := by
  have hb := b.isLt
  simp only [decimalDigit, BitVec.toNat_ofNat]
  omega

/-! ## Loads -/

/-- The state after loading V0 to VX from an address upward: those whose byte lies in memory are loaded, and nothing else
has changed (R125, R198). -/
structure LoadedFrom (a : Nat) (x : Reg) (s t : State) : Prop where
  loaded : ∀ r : Reg, r ≤ x → a + r.val ≤ 4095 → some (t.getV r) = s.readMem (a + r.val)
  kept   : ∀ r : Reg, r ≤ x → 4096 ≤ a + r.val → t.getV r = s.getV r
  above  : ∀ r : Reg, x < r → t.getV r = s.getV r
  frame  : SameExcept [.regs] s t

theorem exec_loadRegs_loadedFrom (x : Reg) (s : State) : ∃ t, LoadedFrom s.i.toNat x s t ∧
    exec (.loadRegs x) s =
      if s.i.toNat + x.val ≤ 4095 then .next t else .fault (.memoryOutOfBounds t) := by
  obtain ⟨v, hload, hregs, hframe⟩ := loadBytes_spec (regsUpTo x) s.i.toNat s (regsUpTo_nodup x)
  have hvalue : ∀ r : Reg, r ≤ x →
      v[r.val] = if s.i.toNat + r.val < 4096 then s.mem.read (s.i.toNat + r.val) else s.getV r := fun r hr =>
    hregs r.val r (by rw [regsUpTo_getElem?, dif_pos (Fin.le_def.mp hr)])
  have hbound : (regsUpTo x = [] ∨ s.i.toNat + (regsUpTo x).length ≤ 4096) ↔ s.i.toNat + x.val ≤ 4095 := by
    have hne : regsUpTo x ≠ [] := List.ne_nil_of_length_pos (by rw [regsUpTo_length]; omega)
    rw [regsUpTo_length, or_iff_right hne]
    omega
  refine ⟨{ s with v := v }, ⟨fun r hr hin => ?_, fun r hr hout => ?_, fun r hr => hframe r ?_, sameExcept_regFile s v⟩,
    hload.trans (if_congr hbound rfl rfl)⟩
  · rw [s.readMem_of_lt (by omega)]
    exact congrArg some ((hvalue r hr).trans (if_pos (by omega)))
  · exact (hvalue r hr).trans (if_neg (by omega))
  · rw [mem_regsUpTo]
    exact Fin.not_le.mpr hr

/-! ## A fetch after a store (R53) -/

theorem fetchSees_of_readMem {t : State} {stored : Nat → Byte → Prop} (hpc : t.pc.toNat ≤ 4094)
    (h : ∀ a c, a < 4096 → stored a c → t.readMem a = some c) : FetchSees t stored := by
  obtain ⟨hi, lo, hfetch⟩ := exists_fetchBytes_of_pc_le hpc
  obtain ⟨hhi, hlo⟩ := State.fetchBytes_eq_some.mp hfetch
  refine ⟨hi, lo, hfetch, fun c hc => ?_, fun c hc => ?_⟩
  · exact Option.some.inj (hhi.symm.trans (h _ c (by omega) hc))
  · exact Option.some.inj (hlo.symm.trans (h _ c (by omega) hc))

theorem fetchSees_of_store {e : Error} {bytes : List Byte} {a : Nat} {s t : State} {stored : Nat → Byte → Prop}
    (h : storeBytes e bytes a s = .next t) (hpc : s.pc.toNat ≤ 4094)
    (hstored : ∀ c b, stored c b → ∃ j, c = a + j ∧ bytes[j]? = some b) : FetchSees t stored := by
  obtain ⟨⟨hread, -, hframe⟩, -⟩ := storedFrom_of_next h
  have hsame : t.pc = s.pc := hframe .pc (by simp)
  refine fetchSees_of_readMem (hsame ▸ hpc) fun c b hc hb => ?_
  obtain ⟨j, rfl, hj⟩ := hstored c b hb
  exact hread j b hj hc

end Sys2Proof.Claims
end

section
/-! The obligations of the index register, of stores and of loads (spec/42_index_memory.md; spec/45_host_commands.md
section 3). -/

namespace Sys2Proof.Claims

open Sys2Proof.Machine

/-- Settles O32: the addition of `BitVec 16` is the one modulo 65536. -/
theorem addToIndexWrapsAt16Bits : Obligations.AddToIndexWrapsAt16Bits := by
  intro x s
  have hv : (zext16 (s.getV x)).toNat = (s.getV x).toNat := BitVec.toNat_setWidth_of_le (by omega)
  refine ⟨decodes_of_word_eq_encode (ofNat_eq_wordX 0xF x 0x1E), _, rfl, ?_, sameExcept_index s _⟩
  rw [BitVec.toNat_add, hv]

/-- Settles O33. -/
theorem bcdStoresThreeDigits : Obligations.BcdStoresThreeDigits := by
  intro x s
  obtain ⟨t, ⟨hread, hothers, hframe⟩, hstore⟩ :=
    storeBytes_storedFrom .memoryOutOfBounds (bcdDigits (s.getV x)) s.i.toNat s
  have hlength : (bcdDigits (s.getV x)).length = 3 := rfl
  have hexec : exec (.ldB x) s = _ := hstore
  obtain ⟨hh, hd, ho, hspell⟩ := decimalDigits_spell (s.getV x)
  refine ⟨decodes_of_word_eq_encode (ofNat_eq_wordX 0xF x 0x33), t, fun hin => ?_, fun hout => ?_,
    ⟨_, _, _, hh, hd, ho, hspell, fun h0 => ?_, fun h1 => ?_, fun h2 => ?_⟩, fun a ha => hothers a (by omega), hframe⟩
  · rw [hexec, if_pos (.inr (by omega))]
  · rw [hexec, if_neg (by simp [bcdDigits]; omega), raise, Fault.of]
  · exact hread 0 _ (bcdDigits_getElem? _ (by omega)) (by omega)
  · exact hread 1 _ (bcdDigits_getElem? _ (by omega)) (by omega)
  · exact hread 2 _ (bcdDigits_getElem? _ (by omega)) (by omega)

/-- Settles O34. -/
theorem storeRegistersWritesEachByte : Obligations.StoreRegistersWritesEachByte := by
  intro x s
  obtain ⟨t, ⟨hread, hothers, hframe⟩, hstore⟩ :=
    storeBytes_storedFrom .memoryOutOfBounds (s.valuesUpTo x) s.i.toNat s
  have hlength := valuesUpTo_length s x
  have hne : s.valuesUpTo x ≠ [] := List.ne_nil_of_length_pos (by omega)
  have hexec : exec (.storeRegs x) s = _ := hstore
  refine ⟨decodes_of_word_eq_encode (ofNat_eq_wordX 0xF x 0x55), t, fun hin => ?_, fun hout => ?_, fun r hr hin => ?_,
    fun a ha => hothers a (by omega), hframe⟩
  · rw [hexec, if_pos (.inr (by omega))]
  · rw [hexec, if_neg (not_or.mpr ⟨hne, by omega⟩), raise, Fault.of]
  · exact hread r.val _ (valuesUpTo_getElem?_of_le s hr) (by omega)

/-- Settles O35. -/
theorem loadRegistersReadsEachByte : Obligations.LoadRegistersReadsEachByte := by
  intro x s
  obtain ⟨t, ⟨hloaded, hkept, habove, hframe⟩, hload⟩ := exec_loadRegs_loadedFrom x s
  refine ⟨decodes_of_word_eq_encode (ofNat_eq_wordX 0xF x 0x65), t, fun hin => ?_, fun hout => ?_, hloaded, hkept,
    habove, hframe⟩
  · rw [hload, if_pos hin]
  · rw [hload, if_neg (by omega)]

/-- Settles O36: a store that goes on had all its addresses in memory, so the load from them goes on too. -/
theorem storeThenLoadRestoresTheRegisters : Obligations.StoreThenLoadRestoresTheRegisters := by
  intro x s t u hstore hi hmem
  obtain ⟨⟨hread, -, hframe⟩, hbound⟩ := storedFrom_of_next (a := s.i.toNat) hstore
  have hlength := valuesUpTo_length s x
  have hin : s.i.toNat + x.val ≤ 4095 := by
    obtain hnil | hle := hbound
    · rw [hnil, List.length_nil] at hlength
      omega
    · omega
  have hindex : u.i = s.i := hi.trans (hframe .index (by simp))
  obtain ⟨w, ⟨hloaded, -, habove, -⟩, hload⟩ := exec_loadRegs_loadedFrom x u
  rw [hindex] at hloaded hload
  refine ⟨w, hload.trans (if_pos hin), fun r hr => ?_, habove⟩
  have hr' := Fin.le_def.mp hr
  have hsaved := hread r.val _ (valuesUpTo_getElem?_of_le s hr) (by omega)
  rw [← State.readMem_congr hmem] at hsaved
  exact Option.some.inj ((hloaded r hr (by omega)).trans hsaved)

/-- Settles O37: the three stores are one `storeBytes`, which leaves `PC`. -/
theorem storesAreSeenByTheNextFetch : Obligations.StoresAreSeenByTheNextFetch := by
  refine fun s t hpc => ⟨fun x h => ?_, fun x h => ?_, fun bytes h => ?_⟩
  · refine fetchSees_of_store (a := s.i.toNat) h hpc ?_
    rintro _ _ ⟨k, hk, rfl, rfl⟩
    exact ⟨k, rfl, bcdDigits_getElem? _ hk⟩
  · refine fetchSees_of_store (a := s.i.toNat) h hpc ?_
    rintro _ _ ⟨r, hr, rfl, rfl⟩
    exact ⟨r.val, rfl, valuesUpTo_getElem?_of_le s hr⟩
  · exact fetchSees_of_store h hpc fun _ _ hj => hj

/-- Settles O48. -/
theorem loadCopiesTheImage : Obligations.LoadCopiesTheImage := by
  intro bytes s
  obtain ⟨t, ⟨hread, hothers, hframe⟩, hstore⟩ := storeBytes_storedFrom .oversizedLoad bytes 0x200 s
  have hload : command (.load bytes) s = _ := hstore
  refine ⟨t, fun hfits => ?_, fun hover => ?_, fun j b hj hlt => hread j b hj (by omega), hothers, hframe⟩
  · have hnext : command (.load bytes) s = .next t := hload.trans (if_pos (.inr (by omega)))
    exact ⟨hnext, response_of_next hnext⟩
  · have hne : bytes ≠ [] := List.ne_nil_of_length_pos (by omega)
    rw [hload, if_neg (not_or.mpr ⟨hne, by omega⟩), raise, Fault.of]

end Sys2Proof.Claims
end

section
/-! SUPPORT. A draw within memory, and a second draw over it (spec/43_display.md R141, R142). -/

namespace Sys2Proof.Claims

open Sys2Proof.Machine

/-- A draw whose rows all lie in memory (R141). -/
theorem exec_drw_in_memory (x y : Reg) {n : BitVec 4} {s : State} (h : n.toNat = 0 ∨ s.i.toNat + n.toNat ≤ 4096) :
    ∃ screen hit, exec (.drw x y n) s = .next (drawn s screen hit) ∧
      (∀ k, screen.pixel k ≠ s.fb.pixel k ↔ SpriteCovers s (s.getV x) (s.getV y) n.toNat k) ∧
      (hit = true ↔ ∃ k, SpriteCovers s (s.getV x) (s.getV y) n.toNat k ∧ s.fb.pixel k = true) := by
  have hall := (rowsInMemory_eq_iff s n.toNat).mpr h
  obtain ⟨screen, hit, hdraw, hcells, hflag⟩ := exec_drw_spec x y n s
  rw [if_pos hall] at hdraw
  rw [hall] at hcells hflag
  exact ⟨screen, hit, hdraw, hcells, hflag⟩

/-- A draw moves neither the sprite nor its corner, where VF gives no coordinate. -/
theorem spriteCovers_drawn (s : State) (screen : FrameBuffer) (hit : Bool) {x y : Reg} (hx : x ≠ 15) (hy : y ≠ 15)
    (n : Nat) (k : Fin 2048) :
    SpriteCovers (drawn s screen hit) ((drawn s screen hit).getV x) ((drawn s screen hit).getV y) n k ↔
      SpriteCovers s (s.getV x) (s.getV y) n k := by
  rw [getV_drawn_ne s screen hit hx, getV_drawn_ne s screen hit hy]
  exact spriteCovers_congr rfl rfl _ _ n k

/-- A pixel that both draws toggle, or neither, is as at the start. -/
theorem pixel_restored {first second third : Bool} (h : third ≠ second ↔ second ≠ first) : third = first := by
  decide +revert

end Sys2Proof.Claims
end

section
/-! The obligations of DRW (spec/43_display.md R141, R142, R194). -/

namespace Sys2Proof.Claims

open Sys2Proof.Machine

/-- Settles O39. -/
theorem drawTogglesTheSpriteCells : Obligations.DrawTogglesTheSpriteCells := by
  intro x y n s
  have hword : word (0xD000 + 256 * x.val + 16 * y.val + n.toNat) = encode (.drw x y n) := by
    refine (congrArg word ?_).trans (ofNat_eq_wordXYN 0xD x y n)
    change _ = 13 * 4096 + n.toNat + _ + _
    omega
  refine ⟨decodes_of_word_eq_encode hword, fun hin => ?_⟩
  obtain ⟨screen, hit, hdraw, hcells, hflag⟩ := exec_drw_in_memory x y hin
  refine ⟨_, hdraw, hcells, ?_, ?_, sameRegsExcept_drawn s screen hit, sameExcept_drawn s screen hit⟩
  · exact getV_drawn_vf s screen hit ▸ flagByte_eq_zero_or_one hit
  · rw [getV_drawn_vf, flagByte_eq_one_iff]
    exact hflag

/-- Settles O40: the rows in memory are the `4096 - I` first ones, and some row is not among them. -/
theorem drawPastMemoryKeepsTheEarlierRows : Obligations.DrawPastMemoryKeepsTheEarlierRows := by
  intro x y n s hn hpast
  have hrows : rowsInMemory s n.toNat = 4096 - s.i.toNat := by
    rw [rowsInMemory]
    omega
  obtain ⟨screen, hit, hdraw, hcells, -⟩ := exec_drw_spec x y n s
  rw [hrows] at hdraw hcells
  exact ⟨_, hdraw.trans (if_neg (by omega)), hcells, sameExcept_frameBuffer s screen⟩

/-- Settles O41: the first draw moves neither the sprite nor its corner, so the second toggles the same cells again, each
of them lit now exactly where it was unlit before. -/
theorem drawTwiceRestoresTheScreen : Obligations.DrawTwiceRestoresTheScreen := by
  intro x y n s hx hy hin
  obtain ⟨screen, hit, hdraw, hcells, -⟩ := exec_drw_in_memory x y hin
  obtain ⟨screen', hit', hdraw', hcells', hflag'⟩ := exec_drw_in_memory x y (s := drawn s screen hit) hin
  simp only [spriteCovers_drawn s screen hit hx hy] at hcells' hflag'
  have hrestored : ∀ k, screen'.pixel k = s.fb.pixel k := fun k => pixel_restored ((hcells' k).trans (hcells k).symm)
  have hlit : ∀ k, SpriteCovers s (s.getV x) (s.getV y) n.toNat k →
      (screen.pixel k = true ↔ s.fb.pixel k = false) := fun k hk => by
    rw [Bool.eq_not_of_ne ((hcells k).mpr hk), Bool.not_eq_true']
  obtain rfl : screen' = s.fb := Vector.ext fun k hk => hrestored ⟨k, hk⟩
  refine ⟨_, _, hdraw, hdraw', hrestored, ?_, fun r hr => ?_, sameExcept_regFile s _⟩
  · rw [getV_drawn_vf, flagByte_eq_one_iff, hflag']
    exact exists_congr fun k => and_congr_right fun hk => hlit k hk
  · exact (sameRegsExcept_drawn _ _ hit' r hr).trans (sameRegsExcept_drawn s screen hit r hr)

end Sys2Proof.Claims
end

section
/-! SUPPORT. EXECUTE where the word at `PC` is an instruction's, responses, and steps that lead back
(spec/45_host_commands.md R173, R177). -/

namespace Sys2Proof.Claims

open Sys2Proof.Machine

/-! ## EXECUTE of the fetched instruction -/

theorem executeCommand_of_fetchesInstr {s : State} {i : Instr} (h : FetchesInstr s i) (rnd : Option Byte) :
    executeCommand rnd s = exec i (s.enter rnd) := by
  obtain ⟨hi, lo, hhi, hlo, hdecode⟩ := h
  rw [← wordOfBytes_eq_ofNat] at hdecode
  exact executeCommand_of_decode rnd (State.fetchBytes_eq_some.mpr ⟨hhi, hlo⟩) hdecode

theorem execute_of_fetchesInstr {s : State} {i : Instr} (h : FetchesInstr s i) (b : Byte) :
    command (.execute b) s = exec i (s.enter (some b)) := executeCommand_of_fetchesInstr h (some b)

theorem step_of_fetchesInstr {s : State} {i : Instr} (h : FetchesInstr s i) (hpending : s.pending = []) :
    step s = exec i (s.enter none) := (step_of_nil hpending).trans (executeCommand_of_fetchesInstr h none)

/-- A fetch reads `PC` and memory only. -/
theorem FetchesInstr.congr {s t : State} {i : Instr} (h : FetchesInstr s i) (hpc : t.pc = s.pc) (hmem : t.mem = s.mem) :
    FetchesInstr t i := by
  simpa only [FetchesInstr, hpc, State.readMem_congr hmem] using h

/-- UnknownOpcode comes from decoding, past the word: no instruction raises it (R190, R191). -/
theorem eq_enter_of_unknownOpcode {s t : State} {b : Byte}
    (h : command (.execute b) s = .fault (.unknownOpcode t)) : t = s.enter (some b) := by
  change executeCommand (some b) s = _ at h
  obtain ⟨-, hrun⟩ | ⟨_, _, -, ⟨_, -, hrun⟩ | ⟨i, -, hrun⟩⟩ := executeCommand_cases (some b) s
  · cases hrun.symm.trans h
  · cases hrun.symm.trans h
    rfl
  · have herr : Error.unknownOpcode ∈ errorsRaised i :=
      ((exec_writesOnlyListed i _).fault (hrun.symm.trans h)).1
    cases i <;> simp [errorsRaised] at herr

/-! ## Responses (R177) -/

theorem successResponse_ne_error (c : Command) (s : State) (e : Error) : successResponse c s ≠ .error e := by
  cases c <;> simp [successResponse]

theorem response_eq_error_iff (c : Command) (s : State) (e : Error) :
    response c s = .error e ↔ ∃ f, command c s = .fault f ∧ f.error = e := by
  cases hresult : command c s with
  | next t => simp [response_of_next hresult, successResponse_ne_error]
  | fault f => simp [response_of_fault hresult]
  | refused r => exact absurd hresult ((command_answers c s).ne_refused r)

/-! ## Steps that lead back to where they began -/

/-- EXECUTE with no named random byte that leaves the core as it was. -/
def withoutRandom (s : State) : State := { s with rnd := none }

theorem sameExcept_withoutRandom (s : State) : SameExcept [.inputs] s (withoutRandom s) := by
  rw [withoutRandom]
  exact sameExcept_of_fields

/-- An instruction that takes `PC` back to its own address undoes the advance of the fetch. -/
theorem enter_jump_back (s : State) : (s.enter none).jump s.pc = withoutRandom s := rfl

/-- A step to a state that steps to itself: the run stays there. -/
theorem run_of_next_fixed {s t : State} (h : step s = .next t) (ht : step t = .next t) (n : Nat) :
    Host.Core.run core (n + 1) s = .next t := by
  induction n generalizing s with
  | zero => exact run_succ_of_next 0 h
  | succ n ih => exact (run_succ_of_next (n + 1) h).trans (ih ht)

theorem step_of_key_wait {x : Reg} {s : State} (hpending : s.pending = []) (hfetch : FetchesInstr s (.ldVxK x))
    (hkeys : ∀ k : Key, s.keys[k.val] = false) : step s = .next (withoutRandom s) := by
  have hnone : (s.enter none).lowestKey = none := State.lowestKey_eq_none.mpr hkeys
  have hback : (s.enter none).pc - 2 = s.pc := BitVec.add_sub_cancel s.pc 2
  rw [step_of_fetchesInstr hfetch hpending, exec_ldVxK_of_no_key x hnone, hback, enter_jump_back]

/-! ## The jump to its own address (R82, R182) -/

theorem zextAddr_setWidth_of_lt {pc : Half} (h : pc.toNat < 4096) : zextAddr (pc.setWidth 12) = pc := by
  apply BitVec.eq_of_toNat_eq
  rw [zextAddr_toNat, BitVec.toNat_setWidth]
  omega

/-- Below 4096 the address of JP fills the bits that 0x1000 leaves clear. -/
theorem jumpWord_eq_encode {pc : Half} (h : pc.toNat < 4096) : 0x1000 ||| pc = encode (.jp (pc.setWidth 12)) := by
  apply BitVec.eq_of_toNat_eq
  have hor : 2 ^ 12 * 1 + pc.toNat = 2 ^ 12 * 1 ||| pc.toNat := Nat.two_pow_add_eq_or_of_lt h 1
  have hlow : pc.toNat % 2 ^ 12 = pc.toNat := Nat.mod_eq_of_lt h
  rw [encode, wordNNN_toNat, BitVec.toNat_setWidth, hlow, BitVec.toNat_or]
  exact hor.symm

theorem step_of_self_jump {s : State} (hjump : s.atSelfJump) (hpending : s.pending = []) :
    step s = .next (withoutRandom s) := by
  obtain ⟨hi, lo, hfetch, hword⟩ := hjump
  have hpc : s.pc.toNat < 4096 := (State.readMem_eq_some.mp (State.fetchBytes_eq_some.mp hfetch).1).1
  have hdecode : decodeWord (wordOfBytes hi lo) = .ok (.jp (s.pc.setWidth 12)) := by
    rw [hword, jumpWord_eq_encode hpc]
    exact decodeWord_of_decodeTree_some (decodeTree_encode _)
  have hself : (s.enter none).jump (zextAddr (s.pc.setWidth 12)) = withoutRandom s := by
    rw [zextAddr_setWidth_of_lt hpc, enter_jump_back]
  have hstep := step_of_fetchesInstr (fetchesInstr_of_fetchBytes hfetch hdecode) hpending
  exact hstep.trans (congrArg Host.Outcome.next hself)

/-! ## A call and a return (R81, R83) -/

theorem exec_ret_of_pop_some {s t : State} (h : s.pop = some t) : exec .ret s = .next t := by
  simp only [exec, execRet, h]

theorem exec_ret_of_pop_none {s : State} (h : s.pop = none) : exec .ret s = .fault (.stackUnderflow s) := by
  simp only [exec, execRet, h, raise, Fault.of]

/-- The state after CALL: the slot `SP` numbers holds the pushed `PC` (R83). -/
def called (s : State) (target : Half) (hfree : s.sp.val < 16) : State :=
  { s with stack := s.stack.set s.sp.val s.pc, sp := ⟨s.sp.val + 1, by omega⟩, pc := target }

theorem exec_call_of_free (nnn : BitVec 12) {s : State} (hfree : s.sp.val < 16) :
    exec (.call nnn) s = .next (called s (zextAddr nnn) hfree) :=
  exec_call_of_push_some nnn (State.push_eq_some.mpr ⟨hfree, rfl⟩)

/-- A return right after a call pops what the call pushed; only the slot keeps it (R81, R83). -/
theorem exec_ret_called (s : State) (target : Half) (hfree : s.sp.val < 16) :
    exec .ret ((called s target hfree).enter none) =
      .next { s with stack := s.stack.set s.sp.val s.pc, rnd := none } := by
  apply exec_ret_of_pop_some
  rw [State.pop_eq_some]
  refine ⟨Nat.succ_pos _, ?_⟩
  simp [called, State.enter]

/-! ## A run of NOPs (R222) -/

/-- The state after power-on with another `PC`. -/
def resetAt (pc : Nat) : State := { State.reset with pc := BitVec.ofNat 16 pc }

theorem resetAt_pc {pc : Nat} (h : pc < 65536) : (resetAt pc).pc.toNat = pc :=
  (BitVec.toNat_ofNat ..).trans (Nat.mod_eq_of_lt h)

/-- Above the font the empty memory reads as NOPs. -/
theorem fetchesInstr_resetAt {pc : Nat} (hlow : 80 ≤ pc) (hhigh : pc ≤ 4094) : FetchesInstr (resetAt pc) .nop := by
  refine ⟨0, 0, ?_, ?_, decodes_of_word_eq_encode rfl⟩ <;> rw [resetAt_pc (by omega)]
  · rw [readMem_of_mem_nil rfl (by omega), unlisted_of_fontSize_le hlow]
  · rw [readMem_of_mem_nil rfl (by omega), unlisted_of_fontSize_le (by omega)]

theorem step_resetAt {pc : Nat} (hlow : 80 ≤ pc) (hhigh : pc ≤ 4094) : step (resetAt pc) = .next (resetAt (pc + 2)) := by
  have hadvance : BitVec.ofNat 16 (pc + 2) = BitVec.ofNat 16 pc + 2 := BitVec.ofNat_add pc 2
  rw [step_of_fetchesInstr (fetchesInstr_resetAt hlow hhigh) rfl, resetAt, resetAt, hadvance]
  rfl

theorem step_resetAt_end : step (resetAt 4096) = .fault (.memoryOutOfBounds (resetAt 4096)) :=
  (step_of_nil rfl).trans (executeCommand_of_no_fetch none (State.fetchBytes_eq_none.mpr (by
    rw [resetAt_pc (by omega)]
    omega)))

theorem run_resetAt (m n : Nat) {pc : Nat} (hlow : 80 ≤ pc) (hhigh : pc + 2 * n ≤ 4096) :
    Host.Core.run core (m + n) (resetAt pc) = Host.Core.run core m (resetAt (pc + 2 * n)) := by
  induction n generalizing pc with
  | zero => rfl
  | succ n ih =>
    calc Host.Core.run core (m + n + 1) (resetAt pc)
      _ = Host.Core.run core (m + n) (resetAt (pc + 2)) := run_succ_of_next _ (step_resetAt hlow (by omega))
      _ = Host.Core.run core m (resetAt (pc + 2 + 2 * n)) := ih (by omega) (by omega)
      _ = Host.Core.run core m (resetAt (pc + 2 * (n + 1))) := by rw [show pc + 2 + 2 * n = pc + 2 * (n + 1) by omega]

/-! ## The timers -/

theorem tickDown_toNat (b : Byte) : (tickDown b).toNat = b.toNat - 1 := by
  rw [tickDown]
  split
  · simp [*]
  · bv_omega

theorem tone_eq_decide (s : State) : s.tone = decide (s.st.toNat = 1) := by
  rw [State.tone, Bool.eq_iff_iff, beq_iff_eq, decide_eq_true_iff]
  exact ⟨fun h => h ▸ rfl, fun h => BitVec.eq_of_toNat_eq h⟩

theorem response_tick (s : State) : response .tick s = .tone (decide (s.st.toNat = 1)) := by
  rw [response_of_next (c := .tick) rfl, successResponse, tone_eq_decide]

/-! ## The keypad -/

theorem setKey_of_key {index : Byte} {k : Key} (h : index.toNat = k.val) (pressed : Bool) (s : State) :
    command (.setKey index pressed) s = .next { s with keys := s.keys.set k.val pressed } := by
  simp only [command, setKeyCommand, keyNumber_eq_some.mpr h]

theorem setKey_of_no_key {index : Byte} (h : 16 ≤ index.toNat) (pressed : Bool) (s : State) :
    command (.setKey index pressed) s = .fault (.invalidKeyIndex s) := by
  simp only [command, setKeyCommand, keyNumber_eq_none.mpr h, raise, Fault.of]

end Sys2Proof.Claims
end

section
/-! The obligations of the step and of runs (spec/45_host_commands.md; spec/40_control_flow.md; spec/60_exceptions.md
section 2; spec/70_reset_and_hazards.md section 2). -/

namespace Sys2Proof.Claims

open Sys2Proof.Machine

/-- Settles O5. -/
theorem stepRunsTheDecodedInstruction : Obligations.StepRunsTheDecodedInstruction := by
  refine fun s i hfetch => ⟨step_of_fetchesInstr hfetch, fun b rest hpending => ?_⟩
  have hfetch' : FetchesInstr { s with pending := rest } i := hfetch.congr rfl rfl
  exact (step_of_cons hpending).trans (execute_of_fetchesInstr hfetch' b)

/-- Settles O17: the newest slot is the one below `SP`. -/
theorem retPopsTheNewestSlot : Obligations.RetPopsTheNewestSlot := by
  refine ⟨decodes_of_word_eq_encode rfl, fun s => ⟨fun k hk => ?_, fun hempty => ?_⟩⟩
  · have hpop := State.pop_eq_some.mpr ⟨(by omega : 0 < s.sp.val), rfl⟩
    refine ⟨_, exec_ret_of_pop_some hpop, ?_, ?_, sameExcept_of_fields⟩
    all_goals simp [hk]
  · exact exec_ret_of_pop_none (State.pop_eq_none.mpr hempty)

/-- Settles O19: the jump undoes the advance of the fetch, and the word at `PC` is still the jump. -/
theorem selfJumpIsStable : Obligations.SelfJumpIsStable :=
  fun s hjump hpending => ⟨_, step_of_self_jump hjump hpending, sameExcept_withoutRandom s, hjump, hpending⟩

/-- Settles O21: the return is fetched at the call's target, from the memory the call left, and pops the slot the call
pushed. -/
theorem callThenRetComesBack : Obligations.CallThenRetComesBack := by
  rintro nnn s hpending hfree hfetch ⟨hi, lo, hhi, hlo, rfl, rfl⟩
  have hcall := (step_of_fetchesInstr hfetch hpending).trans (exec_call_of_free nnn (s := s.enter none) hfree)
  have htarget : (called (s.enter none) (zextAddr nnn) hfree).pc.toNat = nnn.toNat := zextAddr_toNat nnn
  have hret : FetchesInstr (called (s.enter none) (zextAddr nnn) hfree) .ret :=
    ⟨0x00, 0xEE, htarget ▸ hhi, htarget ▸ hlo, decodes_of_word_eq_encode rfl⟩
  have hback := (step_of_fetchesInstr hret hpending).trans (exec_ret_called (s.enter none) _ hfree)
  exact ⟨_, _, hcall, hback, htarget, rfl, rfl, sameExcept_of_fields⟩

/-- Settles O46: the first EXECUTE forgets the random input, and every further one changes nothing. -/
theorem keyWaitRepeatsUnchanged : Obligations.KeyWaitRepeatsUnchanged := by
  intro n x s hpending hfetch hkeys
  cases n with
  | zero => exact ⟨s, rfl, sameExcept_refl _ s, hpending⟩
  | succ n =>
    have hfirst := step_of_key_wait hpending hfetch hkeys
    have hagain : step (withoutRandom s) = .next (withoutRandom s) :=
      step_of_key_wait (s := withoutRandom s) hpending (hfetch.congr rfl rfl) hkeys
    exact ⟨_, run_of_next_fixed hfirst hagain n, sameExcept_withoutRandom s, hpending⟩

/-- Settles O53: the driver receives an error exactly from a fault of the command. -/
theorem stepRunsTheNextCommand : Obligations.StepRunsTheNextCommand := by
  intro s c rest hpending
  have hstep := step_of_cons hpending
  exact ⟨hstep, fun e => hstep ▸ response_eq_error_iff c _ e⟩

/-- Settles O54: an induction along the commands, each of which leaves the state as it is. -/
theorem fetchErrorRepeats : Obligations.FetchErrorRepeats := by
  intro bs s hpc
  induction bs with
  | nil => rfl
  | cons b bs ih =>
    have hfault := execute_of_pc_ge hpc b
    have hafter : stateAfter (.execute b) s = s := stateAfter_of_fault hfault
    rw [List.map_cons, runCommands, hafter, ih, response_of_fault hfault]
    rfl

/-- Settles O55. -/
theorem executeGoesOnAfterUnknownOpcode : Obligations.ExecuteGoesOnAfterUnknownOpcode := by
  intro s t b b' i hfault hfetch
  have hafter : stateAfter (.execute b) s = t := stateAfter_of_fault hfault
  rw [hafter]
  exact ⟨congrArg State.pc (eq_enter_of_unknownOpcode hfault), rfl, execute_of_fetchesInstr hfetch b'⟩

/-- Settles O56: an induction along the NOPs, two addresses a step. -/
theorem emptyMemoryRunsNopsToItsEnd : Obligations.EmptyMemoryRunsNopsToItsEnd := by
  refine ⟨run_resetAt 0 1792 (pc := 0x200) (by omega) (by omega), ?_⟩
  exact (run_resetAt 1 1792 (pc := 0x200) (by omega) (by omega)).trans (run_succ_of_fault 0 step_resetAt_end)

/-- Settles O57. -/
theorem executeAnswersOkOrTheErrorRaised : Obligations.ExecuteAnswersOkOrTheErrorRaised := by
  intro s i b hfetch
  have hrun := execute_of_fetchesInstr hfetch b
  refine ⟨fun t ht => ?_, fun f hf => ?_⟩
  · have hnext : command (.execute b) s = .next t := hrun.trans ht
    exact ⟨response_of_next hnext, stateAfter_of_next hnext⟩
  · have hfault : command (.execute b) s = .fault f := hrun.trans hf
    exact ⟨response_of_fault hfault, stateAfter_of_fault hfault⟩

end Sys2Proof.Claims
end

section
/-! The obligations of the sound timer, TICK, SETKEY and READFB (spec/44_keypad_timers.md; spec/45_host_commands.md
sections 5 to 7). -/

namespace Sys2Proof.Claims

open Sys2Proof.Machine

/-- Settles O44. -/
theorem soundTimerIsSet : Obligations.SoundTimerIsSet := by
  refine fun x s => ⟨decodes_of_word_eq_encode (ofNat_eq_wordX 0xF x 0x18),
    ⟨_, rfl, rfl, sameExcept_sound s _, response_tick _⟩, fun b hfetch => ?_⟩
  exact response_of_next (execute_of_fetchesInstr hfetch b)

/-- Settles O49: a timer counted down from 1 is 0. -/
theorem tickCountsBothTimersDown : Obligations.TickCountsBothTimersDown := by
  intro s
  refine ⟨_, rfl, tickDown_toNat s.dt, tickDown_toNat s.st, ?_, sameExcept_of_fields⟩
  rw [response_tick]
  refine congrArg Response.tone (decide_eq_decide.mpr ⟨fun h => ⟨h, ?_⟩, And.left⟩)
  rw [tickDown_toNat, h]

/-- Settles O50: the TICK of number `j + 1` is the one of number `j` after the first, which has counted `ST` down. -/
theorem soundTimerGivesOneTone : Obligations.SoundTimerGivesOneTone := by
  intro m
  induction m with
  | zero => exact fun _ => rfl
  | succ m ih =>
    intro s
    have hrest := ih (stateAfter .tick s)
    have hst : (stateAfter .tick s).st.toNat = s.st.toNat - 1 := tickDown_toNat s.st
    rw [List.replicate_succ, runCommands, hrest, response_tick, List.range_succ_eq_map, List.map_cons, List.map_map, hst]
    refine congrArg₂ List.cons ?_ (List.map_congr_left fun j _ => ?_)
    · exact congrArg Response.tone (decide_eq_decide.mpr (by omega))
    · exact congrArg Response.tone (decide_eq_decide.mpr (by omega))

/-- Settles O51. -/
theorem setKeySetsOneLatch : Obligations.SetKeySetsOneLatch := by
  refine fun index pressed s => ⟨fun k hk => ?_, fun hbad => ?_⟩
  · have hnext := setKey_of_key hk pressed s
    refine ⟨response_of_next hnext, _, hnext, Vector.getElem_set_self k.isLt, fun j hj => ?_, sameExcept_of_fields⟩
    exact Vector.getElem_set_ne k.isLt j.isLt fun h => hj (Fin.ext h.symm)
  · have hfault := setKey_of_no_key hbad pressed s
    exact ⟨hfault, response_of_fault hfault⟩

/-- Settles O52. -/
theorem readFramebufferIsAView : Obligations.ReadFramebufferIsAView :=
  fun s => ⟨rfl, s.fb, rfl, fun _ => rfl⟩

end Sys2Proof.Claims
end
